-- ==== Sys2Proof/Word.lean ====
section
/-! DEFINITION. The words of the engine and the two encoding formats of 30_encoding.md: a host bus transaction
(BUS, rule R64) and a command word (CMD, rule R67). -/

namespace Sys2Proof

/-- A host-visible register value and the data word of a host transaction: XLEN = 32 bits (R11). -/
abbrev Word := BitVec 32

/-- A channel value, a byte of OUT, the threshold: 8 bits (R9, R73). -/
abbrev Byte := BitVec 8

/-- The size attribute n of a legal host transaction (R43, R64). -/
inductive Size where
  | b1
  | b2
  | b4
deriving DecidableEq, Repr

/-- The number of bytes n that a size stands for. -/
def Size.bytes : Size → Nat
  | .b1 => 1
  | .b2 => 2
  | .b4 => 4

/-- One host transaction before it is decoded (R64): the 13-bit descriptor, the size attribute n (any number, so
that a bad size can be written down and refused) and the 32-bit data word of a write. -/
structure Txn where
  desc : BitVec 13
  size : Nat
  data : Word
deriving DecidableEq, Repr

/-- What an instruction's encoding is: a BUS transaction or a CMD word (R63). -/
inductive Encoding where
  | bus (t : Txn)
  | cmd (w : Word)
deriving DecidableEq, Repr

end Sys2Proof
end

