-- ==== Sys2Proof/Config.lean ====
section
/-! DEFINITION. The fixed constants of the engine (R9, R11), the parameters a model takes as arguments (R10), and
the free values of the spec: constants without a body, of which nothing can be proved. -/

namespace Sys2Proof

/-- DST_W (R9). -/
abbrev dstW : Nat := 128
/-- DST_H (R9). -/
abbrev dstH : Nat := 64
/-- NPIX = DST_W × DST_H (R9). -/
abbrev nPix : Nat := 8192
/-- OUT_LEN = NPIX / 8 (R9). -/
abbrev outLen : Nat := 1024
/-- WIN_BYTES, the size of the host register window (R11). -/
abbrev winBytes : Nat := 4096

/-- AVG_MODE (R10): how wide the sum of Step 2 is. -/
inductive AvgMode where
  | wrap8
  | wide
deriving DecidableEq, Repr

/-- NN_MAP (R10): the index formula of Step 1. -/
inductive NnMap where
  | center
  | floor
deriving DecidableEq, Repr

/-- The parameters of one implementation (R10). No step changes them. -/
structure Params where
  avgMode : AvgMode
  nnMap   : NnMap
deriving DecidableEq, Repr

/-- The spec's default choice, WRAP8 and CENTER (R10). -/
def Params.default : Params := { avgMode := .wrap8, nnMap := .center }

namespace Config

/-- WIN_BASE (R42, D3): where the platform puts the register window in the host's own address space. FREE (assumption 15). -/
opaque winBase : Nat

/-- Byte k of OUT after the reset that draws at `tick` (R152). FREE. -/
opaque outAtReset : (tick k : Nat) → Byte

/-- Byte m of a read of n bytes at OUT index k while STATUS.BUSY = 1, as drawn at `tick` (R58). FREE. -/
opaque busyOutByte : (tick k n m : Nat) → Byte

/-- What the engine's read of the changed source byte at `addr`, made for destination pixel i, returns, as drawn at
`tick` (R59). FREE. -/
opaque changedSourceByte : (tick i addr : Nat) → Byte

end Config

/-- The host address of a window offset, at the platform's window base (R42, R147). -/
def hostAddress (off : BitVec 12) : Nat := Config.winBase + off.toNat

end Sys2Proof
end

