-- ==== Sys2Proof/Syntax.lean ====
section
/-! DEFINITION. The instructions: one constructor per row of spec/opcode_table.json, the 18 host transactions of
R68 and the 3 command words of R69. -/

namespace Sys2Proof

/-- The host's operations on the engine. A write that ignores its data still carries it, so that no bit of a
transaction is lost (R65). -/
inductive Instr where
  /-- WR_CMD (R79): write a command word. -/
  | wrCmd (data : Word)
  /-- RD_CMD (R78). -/
  | rdCmd
  /-- RD_STATUS (R83). -/
  | rdStatus
  /-- WR_STATUS (R84). -/
  | wrStatus (data : Word)
  /-- RD_SRC_BASE (R85). -/
  | rdSrcBase
  /-- WR_SRC_BASE (R86). -/
  | wrSrcBase (data : Word)
  /-- RD_SRC_LEN (R87). -/
  | rdSrcLen
  /-- WR_SRC_LEN (R88). -/
  | wrSrcLen (data : Word)
  /-- RD_SRC_WIDTH (R89). -/
  | rdSrcWidth
  /-- WR_SRC_WIDTH (R90). -/
  | wrSrcWidth (data : Word)
  /-- RD_SRC_HEIGHT (R91). -/
  | rdSrcHeight
  /-- WR_SRC_HEIGHT (R92). -/
  | wrSrcHeight (data : Word)
  /-- RD_THRESHOLD (R93). -/
  | rdThreshold
  /-- WR_THRESHOLD (R94). -/
  | wrThreshold (data : Word)
  /-- RD_OUT (R95): k is the OUT byte index, field o = OFF[9:0]. -/
  | rdOut (k : BitVec 10) (n : Size)
  /-- WR_OUT (R96). -/
  | wrOut (k : BitVec 10) (n : Size) (data : Word)
  /-- RD_RESERVED (R97). -/
  | rdReserved (off : BitVec 12) (n : Size)
  /-- WR_RESERVED (R98). -/
  | wrReserved (off : BitVec 12) (n : Size) (data : Word)
  /-- NOP, command word 0 (R80). -/
  | nop
  /-- CONVERT, command word 1 (R81). -/
  | convert
  /-- CMD_RESERVED, every other command word (R82). -/
  | cmdReserved (opc : Word)
deriving DecidableEq, Repr

/-- The transactions that return a data word to the host (D = 0). -/
def Instr.isRead : Instr → Bool
  | .rdCmd => true
  | .rdStatus => true
  | .rdSrcBase => true
  | .rdSrcLen => true
  | .rdSrcWidth => true
  | .rdSrcHeight => true
  | .rdThreshold => true
  | .rdOut _ _ => true
  | .rdReserved _ _ => true
  | .wrCmd _ => false
  | .wrStatus _ => false
  | .wrSrcBase _ => false
  | .wrSrcLen _ => false
  | .wrSrcWidth _ => false
  | .wrSrcHeight _ => false
  | .wrThreshold _ => false
  | .wrOut _ _ _ => false
  | .wrReserved _ _ _ => false
  | .nop => false
  | .convert => false
  | .cmdReserved _ => false

/-- The writes that STATUS.BUSY = 1 turns away, WIGN set (R77, R27): the writes to CMD, whose words the three
command constructors are, and to the five configuration registers. -/
def Instr.isGated : Instr → Bool
  | .wrCmd _ => true
  | .wrSrcBase _ => true
  | .wrSrcLen _ => true
  | .wrSrcWidth _ => true
  | .wrSrcHeight _ => true
  | .wrThreshold _ => true
  | .nop => true
  | .convert => true
  | .cmdReserved _ => true
  | .rdCmd => false
  | .rdStatus => false
  | .wrStatus _ => false
  | .rdSrcBase => false
  | .rdSrcLen => false
  | .rdSrcWidth => false
  | .rdSrcHeight => false
  | .rdThreshold => false
  | .rdOut _ _ => false
  | .wrOut _ _ _ => false
  | .rdReserved _ _ => false
  | .wrReserved _ _ _ => false

end Sys2Proof
end

