-- ==== Sys2Proof/WellFormed.lean ====
section
/-! DEFINITION. Which instructions are encodings of the spec: sizes and alignment as R49 asks, offsets in the
region of their row (R42, R68), command words in the class of their row (R69). -/

namespace Sys2Proof

/-- The reserved offsets a transaction of n bytes may name: 0x01C to 0x3FF in whole words, 0x800 to 0xFFF in
aligned units of n (R42, R49, R68). -/
def reservedAccess (off : BitVec 12) (n : Size) : Bool :=
  (0x01C ≤ off.toNat && off.toNat < 0x400 && n == .b4 && off.toNat % 4 == 0) ||
  (0x800 ≤ off.toNat && off.toNat % n.bytes == 0)

/-- An OUT access is aligned to its size (R49, R95). -/
def outAccess (k : BitVec 10) (n : Size) : Bool := k.toNat % n.bytes == 0

/-- The check on an instruction: whether it is the decoding of some word. -/
def Instr.wellFormed : Instr → Bool
  | .wrCmd _ => true
  | .rdCmd => true
  | .rdStatus => true
  | .wrStatus _ => true
  | .rdSrcBase => true
  | .wrSrcBase _ => true
  | .rdSrcLen => true
  | .wrSrcLen _ => true
  | .rdSrcWidth => true
  | .wrSrcWidth _ => true
  | .rdSrcHeight => true
  | .wrSrcHeight _ => true
  | .rdThreshold => true
  | .wrThreshold _ => true
  | .rdOut k n => outAccess k n
  | .wrOut k n _ => outAccess k n
  | .rdReserved off n => reservedAccess off n
  | .wrReserved off n _ => reservedAccess off n
  | .nop => true
  | .convert => true
  | .cmdReserved opc => opc != 0 && opc != 1

end Sys2Proof
end

