-- ==== Sys2Proof/Decode.lean ====
section
/-! DEFINITION. Decoding and encoding of host transactions (R64, R68) and command words (R67, R69), total, rejecting
by name what R49 does not admit; and the same over a row's bits as spec/opcode_table.json numbers them. -/

namespace Sys2Proof

/-- Descriptor bit 12, D: 1 for a write, host to engine (R64). -/
def Txn.isWrite (t : Txn) : Bool := t.desc.getLsbD 12

/-- Descriptor bits 11:0, OFF: the byte offset in the host register window (R64). -/
def Txn.off (t : Txn) : BitVec 12 := t.desc.setWidth 12

/-- Why a transaction is no transaction of the engine (R49, R70, R138). -/
inductive TxnError where
  /-- The size n is not 1, 2 or 4. -/
  | badSize
  /-- An access of 1 or 2 bytes to the register region, offsets 0x000 to 0x3FF. -/
  | subWordRegister
  /-- The offset is not a multiple of the size. -/
  | misaligned
deriving DecidableEq, Repr

/-- R49: what, if anything, forbids a transaction of n bytes at an offset. -/
def accessProblem (off : BitVec 12) (n : Nat) : Option TxnError :=
  if n = 1 ∨ n = 2 ∨ n = 4 then
    if off.toNat < 0x400 ∧ n ≠ 4 then some .subWordRegister
    else if off.toNat % n = 0 then none
    else some .misaligned
  else some .badSize

/-- The rows of R68, by name. -/
inductive BusOp where
  | wrCmd | rdCmd | rdStatus | wrStatus | rdSrcBase | wrSrcBase | rdSrcLen | wrSrcLen | rdSrcWidth | wrSrcWidth
  | rdSrcHeight | wrSrcHeight | rdThreshold | wrThreshold | rdOut | wrOut | rdReserved | wrReserved
deriving DecidableEq, Repr

/-- One row of R68: a descriptor d matches when d AND mask = pattern. -/
structure BusRow where
  op      : BusOp
  pattern : BitVec 13
  mask    : BitVec 13
deriving DecidableEq, Repr

/-- The rows of R68 before the last two, in the table's order. -/
def busTable : List BusRow :=
  [ ⟨.wrCmd,       0x1000, 0x1FFF⟩, ⟨.rdCmd,       0x0000, 0x1FFF⟩,
    ⟨.rdStatus,    0x0004, 0x1FFF⟩, ⟨.wrStatus,    0x1004, 0x1FFF⟩,
    ⟨.rdSrcBase,   0x0008, 0x1FFF⟩, ⟨.wrSrcBase,   0x1008, 0x1FFF⟩,
    ⟨.rdSrcLen,    0x000C, 0x1FFF⟩, ⟨.wrSrcLen,    0x100C, 0x1FFF⟩,
    ⟨.rdSrcWidth,  0x0010, 0x1FFF⟩, ⟨.wrSrcWidth,  0x1010, 0x1FFF⟩,
    ⟨.rdSrcHeight, 0x0014, 0x1FFF⟩, ⟨.wrSrcHeight, 0x1014, 0x1FFF⟩,
    ⟨.rdThreshold, 0x0018, 0x1FFF⟩, ⟨.wrThreshold, 0x1018, 0x1FFF⟩,
    ⟨.rdOut,       0x0400, 0x1C00⟩, ⟨.wrOut,       0x1400, 0x1C00⟩ ]

/-- The last two rows of R68, RD_RESERVED (0x0000 / 0x1000) and WR_RESERVED (0x1000 / 0x1000): together they take
every descriptor, by its D bit. -/
def lastRow (d : BitVec 13) : BusOp := if d &&& 0x1000 = 0x1000 then .wrReserved else .rdReserved

/-- The first of the rows whose pattern matches, else one of the last two. -/
def firstRow (d : BitVec 13) : List BusRow → BusOp
  | [] => lastRow d
  | r :: rest => if d &&& r.mask = r.pattern then r.op else firstRow d rest

/-- R68: the first row of the table that matches. -/
def decodeRow (d : BitVec 13) : BusOp := firstRow d busTable

/-- The size attribute of a transaction whose n is legal. -/
def Size.ofBytes (n : Nat) : Size := if n = 1 then .b1 else if n = 2 then .b2 else .b4

/-- The instruction of a row, with the operands of R65 taken from the transaction. -/
def BusOp.instr (op : BusOp) (t : Txn) : Instr :=
  match op with
  | .wrCmd => .wrCmd t.data
  | .rdCmd => .rdCmd
  | .rdStatus => .rdStatus
  | .wrStatus => .wrStatus t.data
  | .rdSrcBase => .rdSrcBase
  | .wrSrcBase => .wrSrcBase t.data
  | .rdSrcLen => .rdSrcLen
  | .wrSrcLen => .wrSrcLen t.data
  | .rdSrcWidth => .rdSrcWidth
  | .wrSrcWidth => .wrSrcWidth t.data
  | .rdSrcHeight => .rdSrcHeight
  | .wrSrcHeight => .wrSrcHeight t.data
  | .rdThreshold => .rdThreshold
  | .wrThreshold => .wrThreshold t.data
  | .rdOut => .rdOut (t.desc.setWidth 10) (Size.ofBytes t.size)
  | .wrOut => .wrOut (t.desc.setWidth 10) (Size.ofBytes t.size) t.data
  | .rdReserved => .rdReserved t.off (Size.ofBytes t.size)
  | .wrReserved => .wrReserved t.off (Size.ofBytes t.size) t.data

/-- R77, R68: a host transaction is legal (R49) and decodes to its row's instruction, or is refused by name. -/
def decodeBus (t : Txn) : Except TxnError Instr :=
  match accessProblem t.off t.size with
  | some e => .error e
  | none => .ok ((decodeRow t.desc).instr t)

/-- The rows of R69, by name. -/
inductive CmdOp where
  | nop
  | convert
  | cmdReserved
deriving DecidableEq, Repr

/-- R69: all 32 bits of a command word are decoded. -/
def decodeCmdRow (w : Word) : CmdOp :=
  if w = 0x00000000 then .nop
  else if w = 0x00000001 then .convert
  else .cmdReserved

/-- The instruction of a command word (R69). -/
def decodeCmd (w : Word) : Instr :=
  match decodeCmdRow w with
  | .nop => .nop
  | .convert => .convert
  | .cmdReserved => .cmdReserved w

/-- Decoding of either format. -/
def decode : Encoding → Except TxnError Instr
  | .bus t => decodeBus t
  | .cmd w => .ok (decodeCmd w)

/-- The encoding of an instruction, from the tables of R68 and R69. A read carries no data word to the engine: its
data is written as zero. -/
def encode : Instr → Encoding
  | .wrCmd d => .bus ⟨0x1000, 4, d⟩
  | .rdCmd => .bus ⟨0x0000, 4, 0⟩
  | .rdStatus => .bus ⟨0x0004, 4, 0⟩
  | .wrStatus d => .bus ⟨0x1004, 4, d⟩
  | .rdSrcBase => .bus ⟨0x0008, 4, 0⟩
  | .wrSrcBase d => .bus ⟨0x1008, 4, d⟩
  | .rdSrcLen => .bus ⟨0x000C, 4, 0⟩
  | .wrSrcLen d => .bus ⟨0x100C, 4, d⟩
  | .rdSrcWidth => .bus ⟨0x0010, 4, 0⟩
  | .wrSrcWidth d => .bus ⟨0x1010, 4, d⟩
  | .rdSrcHeight => .bus ⟨0x0014, 4, 0⟩
  | .wrSrcHeight d => .bus ⟨0x1014, 4, d⟩
  | .rdThreshold => .bus ⟨0x0018, 4, 0⟩
  | .wrThreshold d => .bus ⟨0x1018, 4, d⟩
  | .rdOut k n => .bus ⟨0b001#3 ++ k, n.bytes, 0⟩
  | .wrOut k n d => .bus ⟨0b101#3 ++ k, n.bytes, d⟩
  | .rdReserved off n => .bus ⟨0b0#1 ++ off, n.bytes, 0⟩
  | .wrReserved off n d => .bus ⟨0b1#1 ++ off, n.bytes, d⟩
  | .nop => .cmd 0x00000000
  | .convert => .cmd 0x00000001
  | .cmdReserved w => .cmd w

/-- DESIGN CHOICE (assumption 2): the spec gives the size attribute and the data word of a transaction no bit
places, so the model lays a whole transaction out as 64 bits: the descriptor in bits 12:0, n modulo 4 in bits 17:16
(so that zeros stand for n = 4), the data word in bits 63:32, every other bit zero. -/
def txnOfBits (w : Nat) : Option Txn :=
  if w < 2 ^ 64 ∧ w / 2 ^ 13 % 8 = 0 ∧ w / 2 ^ 18 % 2 ^ 14 = 0 then
    some
      { desc := BitVec.ofNat 13 w
        size := if w / 2 ^ 16 % 4 = 0 then 4 else w / 2 ^ 16 % 4
        data := BitVec.ofNat 32 (w / 2 ^ 32) }
  else none

/-- The bits of a transaction in the layout of `txnOfBits`. -/
def bitsOfTxn (t : Txn) : Nat := t.desc.toNat + t.size % 4 * 2 ^ 16 + t.data.toNat * 2 ^ 32

/-- The instruction that a row's bits, as spec/opcode_table.json numbers them, stand for: 32 bits are a CMD word
(R67), any other number of bits a BUS transaction in the layout of `txnOfBits`. -/
def decodeTableWord (nbits w : Nat) : Option Instr :=
  if nbits = 32 then
    if w < 2 ^ 32 then some (decodeCmd (BitVec.ofNat 32 w)) else none
  else
    match txnOfBits w with
    | none => none
    | some t =>
      match decodeBus t with
      | .ok i => some i
      | .error _ => none

/-- The bits of an instruction for `decodeTableWord`: their number and their value. -/
def encodeTableWord (i : Instr) : Nat × Nat :=
  match encode i with
  | .bus t => (64, bitsOfTxn t)
  | .cmd w => (32, w.toNat)

/-- The host transaction that puts a row's bits on the bus: a CMD word is the data word of a write to CMD (R67); bits
that are no transaction become one of size 0, which is refused. -/
def txnOfTableWord (nbits w : Nat) : Txn :=
  if nbits = 32 then ⟨0x1000, 4, BitVec.ofNat 32 w⟩
  else (txnOfBits w).getD ⟨BitVec.ofNat 13 w, 0, 0⟩

end Sys2Proof
end

