-- ==== Sys2Proof/Machine/State.lean ====
section
/-! DEFINITION. The state of the machine as plain data: the engine's registers, OUT buffer and hidden sequencer state
(10_state.md), the platform's source memory (R44), the host agents (R18, R75) and the order in which the agents
move (R56); its value right after reset (R39); and the reasons a step can stop. -/

namespace Sys2Proof.Machine

/-- The fields of STATUS (R23). Its reserved bits read 0 always, so they are no state. -/
structure Status where
  busy    : Bool
  done    : Bool
  err     : Bool
  wign    : Bool
  errCode : BitVec 4
deriving DecidableEq, Repr

/-- The configuration registers (R29 to R33). THRESHOLD holds its field T alone: bits 31:8 read 0 (R33). -/
structure Regs where
  srcBase   : Word
  srcLen    : Word
  srcWidth  : Word
  srcHeight : Word
  threshold : Byte
deriving DecidableEq, Repr

/-- The hidden sequencer state (R35): raster index, accumulating byte, its bits filled, next OUT index. -/
structure Engine where
  pix  : Nat
  acc  : Byte
  nb   : Nat
  oidx : Nat
deriving DecidableEq, Repr

/-- Source memory: the bytes the platform backs, by address. An unlisted address is one it does not back (R45). -/
abbrev Memory := List Host.Cell

/-- One statement of a host program once assembled (R75): a bus transaction, whose read data may go to a host
variable, or a host-side branch. -/
inductive HostOp where
  | bus (t : Txn) (dst : Option Nat)
  | bz (r : Nat) (mask : Word) (target : Nat)
  | bnz (r : Nat) (mask : Word) (target : Nat)
deriving DecidableEq, Repr

/-- A host agent (R18, R148): its program, the statement it comes to next, and its scratch variables (R75), of which
an unlisted one holds 0. -/
structure HostAgent where
  prog : List HostOp
  pc   : Nat
  vars : List (Nat × Word)
deriving DecidableEq, Repr

/-- Whose turn it is (R18, R56): host agent k, the engine, the platform writing or ceasing to back one byte of
source memory, or reset. -/
inductive Turn where
  | host (k : Nat)
  | engine
  | platformWrite (addr : BitVec 32) (b : Byte)
  | platformUnback (addr : BitVec 32)
  | reset
deriving DecidableEq, Repr

/-- The whole machine. -/
structure State where
  /-- The parameters AVG_MODE and NN_MAP (R10; assumption 10). -/
  params   : Params
  /-- STATUS (R23 to R28). -/
  status   : Status
  /-- SRC_BASE, SRC_LEN, SRC_WIDTH, SRC_HEIGHT, THRESHOLD (R29 to R33). -/
  regs     : Regs
  /-- The output buffer (R34). -/
  out      : Vector Byte outLen
  /-- eng.PIX, eng.ACC, eng.NB, eng.OIDX (R35). -/
  eng      : Engine
  /-- Whether the engine is stuck on a source read without an answer: with BUSY = 1, and until reset (R45, R139). -/
  stuck    : Bool
  /-- Source memory (R44, R45). -/
  source   : Memory
  /-- The source bytes that changed since the last accepted CONVERT while BUSY = 1 (R59), each once. -/
  changed  : List Nat
  /-- The data word a host read returned last (R64). -/
  readData : Word
  /-- The data words the host's reads returned, oldest first (R162). -/
  observed : List Word
  /-- The host agents (assumption 18). -/
  hosts    : List HostAgent
  /-- The coming turns, the next first (R56; assumption 3). -/
  turns    : List Turn
  /-- THE MODEL'S OWN counter, which names the draw that a free value is taken from (assumption 4). -/
  tick     : Nat
deriving DecidableEq, Repr

/-- Why the machine stops with a fault: it never does, so there is no constructor. The spec's two errors are recorded
in STATUS (R132, R135), it has no trap (R142), and a stuck source read leaves a state, `State.stuck`, in which the host
goes on (R139; assumption 11). -/
inductive Fault where
deriving DecidableEq, Repr

/-- Why the machine refuses to go on. -/
inductive Refusal where
  /-- Raised by a dispatch arm of an instruction that has no meaning yet (none has). Safe. -/
  | notModelled (mnemonic : String)
  /-- Raised by a host's turn, and by the meaning of a row with sizes, for a transaction that breaks R49: R138 gives
  it no step and no meaning. Safe (assumption 12). -/
  | badTransaction (why : TxnError)
deriving DecidableEq, Repr

/-- OUT after the reset that draws at `tick`: every byte a free value (R152; assumption 6). -/
def outAfterReset (tick : Nat) : Vector Byte outLen := Vector.ofFn fun k => Config.outAtReset tick k.val

/-- STATUS after reset (R39). -/
def Status.atReset : Status := { busy := false, done := false, err := false, wign := false, errCode := 0 }

/-- The configuration registers after reset (R39). -/
def Regs.atReset : Regs := { srcBase := 0, srcLen := 0, srcWidth := 0, srcHeight := 0, threshold := 0 }

/-- The hidden sequencer state after reset, and at the start of every conversion (R39, R81). -/
def Engine.start : Engine := { pix := 0, acc := 0, nb := 0, oidx := 0 }

/-- The machine right after reset (R39): no source memory is backed yet, no host program is loaded, no turn is
planned. DESIGN CHOICE (assumptions 5, 6, 8, 9): readData and tick are the model's own, and the platform and the
hosts begin empty. -/
def State.reset : State where
  params := Params.default
  status := Status.atReset
  regs := Regs.atReset
  out := outAfterReset 0
  eng := Engine.start
  stuck := false
  source := []
  changed := []
  readData := 0
  observed := []
  hosts := []
  turns := []
  tick := 1

end Sys2Proof.Machine
end

