-- ==== Sys2Proof/Machine/Flags.lean ====
section
/-! DEFINITION. The flags: every change of a STATUS field that the spec names (R24 to R28, R81, R99, R135), and
STATUS as the word a host reads (R83). The engine has no other flag: no arithmetic writes one (R37). -/

namespace Sys2Proof.Machine

/-- The errors the engine raises (R132). -/
inductive ErrorKind where
  | invalidImageDimensions
  | illegalCommand
deriving DecidableEq, Repr

/-- STATUS.ERR_CODE of an error (R134). -/
def ErrorKind.code : ErrorKind → BitVec 4
  | .invalidImageDimensions => 1
  | .illegalCommand => 2

/-- A write turned away while BUSY = 1 sets WIGN and nothing else (R27, R137). -/
def Status.writeIgnored (f : Status) : Status := { f with wign := true }

/-- An accepted CONVERT first clears DONE, ERR, ERR_CODE and WIGN (R81). -/
def Status.accepted (f : Status) : Status := { f with done := false, err := false, errCode := 0, wign := false }

/-- A conversion starts (R24, R81). -/
def Status.started (f : Status) : Status := { f with busy := true }

/-- The last engine step ends the conversion (R99). -/
def Status.finished (f : Status) : Status := { f with busy := false, done := true }

/-- Recording an error (R135). -/
def Status.raised (f : Status) (e : ErrorKind) : Status := { f with err := true, errCode := e.code, done := true }

/-- A flag as a number. -/
def flagBit (b : Bool) : Word := if b then 1 else 0

/-- STATUS as a host reads it (R23, R83). -/
def Status.word (f : Status) : Word :=
  (f.errCode.setWidth 32 <<< 8) ||| (flagBit f.wign <<< 3) ||| (flagBit f.err <<< 2) ||| (flagBit f.done <<< 1) |||
    flagBit f.busy

end Sys2Proof.Machine
end

