-- ==== Sys2Proof/Machine/Ops.lean ====
section
/-! DEFINITION. The operations the meanings share: source memory in one canonical form, the platform's changes of it
that need no more than memory, the gate on writes while a conversion runs (R77), recording an error (R16, R135),
handing a data word to the host (R64), and reset (R151). The engine has no trap entry and no trap return (R142,
R143): `State.raise` is all that an error does. -/

namespace Sys2Proof.Machine

variable {α : Type}

/-- The entry for a key, in a list of keys and values. -/
def Cells.read : List (Nat × α) → Nat → Option α
  | [], _ => none
  | (k, v) :: rest, a => if k = a then some v else Cells.read rest a

/-- Enter a value for a key, keeping the keys rising. -/
def Cells.write : List (Nat × α) → Nat → α → List (Nat × α)
  | [], a, v => [(a, v)]
  | (k, w) :: rest, a, v =>
    if k < a then (k, w) :: Cells.write rest a v
    else if k = a then (a, v) :: rest
    else (a, v) :: (k, w) :: rest

/-- Remove a key's entry. -/
def Cells.erase : List (Nat × α) → Nat → List (Nat × α)
  | [], _ => []
  | (k, w) :: rest, a => if k = a then rest else (k, w) :: Cells.erase rest a

/-- The keys rise strictly. -/
abbrev Cells.rising (m : List (Nat × α)) : Prop := (m.map Prod.fst).Pairwise (· < ·)

/-- The canonical form of source memory: addresses rise strictly and lie below 2^32 (R41). An unlisted address reads
as no byte, so no entry equals what an unlisted one reads as. -/
abbrev Memory.wf (m : Memory) : Prop := Cells.rising m ∧ ∀ c ∈ m, c.1 < 2 ^ 32

/-- MemRead(addr, 1) (R45): the byte the platform holds there, or none where it backs no byte. -/
def Memory.read (m : Memory) (a : Nat) : Option Byte := if a < 2 ^ 32 then Cells.read m a else none

/-- The platform backs `a` with byte `b`. -/
def Memory.write (m : Memory) (a : BitVec 32) (b : Byte) : Memory := Cells.write m a.toNat b

/-- The platform backs `a` no more. -/
def Memory.unback (m : Memory) (a : BitVec 32) : Memory := Cells.erase m a.toNat

/-- The platform backs consecutive addresses with the listed bytes: the `mem` statement of R75, which is part of the
start state. DESIGN CHOICE (assumption 20): addresses wrap at the end of the space. -/
def Memory.place (m : Memory) (a : BitVec 32) : List Byte → Memory
  | [] => m
  | b :: rest => Memory.place (m.write a b) (a + 1) rest

/-- Record an error (R16, R135): STATUS.ERR, ERR_CODE and DONE, and nothing else. -/
def State.raise (s : State) (e : ErrorKind) : State := { s with status := s.status.raised e }

/-- Set STATUS.WIGN (R27). -/
def State.ignoreWrite (s : State) : State := { s with status := s.status.writeIgnored }

/-- R77: a write to CMD or a configuration register has its effect with BUSY = 0 and only sets WIGN with BUSY = 1. -/
def gatedWrite (s : State) (effect : State → State) : State :=
  if s.status.busy then s.ignoreWrite else effect s

/-- The data word of a read (R64). Nothing else changes (R52). -/
def State.returnData (s : State) (w : Word) : State := { s with readData := w }

/-- R151: reset puts the engine's state into its values of R39, with a fresh draw for every byte of OUT (R152); a stuck
engine is stuck no more (R139). The
platform's memory, the hosts and the turns are no state of the engine. -/
def State.resetEngine (s : State) : State :=
  { s with
    status := Status.atReset
    regs := Regs.atReset
    out := outAfterReset s.tick
    eng := Engine.start
    stuck := false
    changed := []
    tick := s.tick + 1 }

/-- Go on with `f` where an outcome is a next state. -/
def andThen (o : Host.Outcome State Fault Refusal) (f : State → State) : Host.Outcome State Fault Refusal :=
  match o with
  | .next s => .next (f s)
  | .fault r => .fault r
  | .refused r => .refused r

end Sys2Proof.Machine
end

