-- ==== Sys2Proof/Machine/Operands.lean ====
section
/-! DEFINITION. Operands and read data: which part of the data word a write takes (R65), the data word a read of
each region returns (R66, R47), and the access check of R49 in front of the rows that have sizes. -/

namespace Sys2Proof.Machine

/-- The operand of a write to THRESHOLD: data[7:0] (R65, R94). -/
def thresholdOperand (data : Word) : Byte := data.setWidth 8

/-- THRESHOLD as a host reads it (R33, R93). -/
def thresholdWord (t : Byte) : Word := t.setWidth 32

/-- Little-endian assembly (R47, R66): byte m of `n` bytes goes to data bits 8m+7 to 8m, the bits above to 0. -/
def assemble (byte : Nat → Byte) : Nat → Word
  | 0 => 0
  | n + 1 => assemble byte n ||| ((byte n).setWidth 32 <<< (8 * n))

/-- OUT[k] (R34): the buffer has bytes 0 to 1023, and no access reaches another index (R49). -/
def outByte (s : State) (k : Nat) : Byte := s.out[k]?.getD 0

/-- The data word of an OUT read of n bytes at index k (R95): OUT's bytes with BUSY = 0, a free draw for each byte
with BUSY = 1 (R58). DEDUCED (assumption 13): the bits above the n bytes are 0 then too. -/
def outData (s : State) (k n : Nat) : Word :=
  if s.status.busy then assemble (fun m => Config.busyOutByte s.tick k n m) n
  else assemble (fun m => outByte s (k + m)) n

/-- The window offset of OUT index k (R34, R42). -/
def outOffset (k : BitVec 10) : BitVec 12 := 0b01#2 ++ k

/-- R77: a transaction that breaks R49 is refused before anything else. -/
def ifLegal (off : BitVec 12) (n : Size) (s : State) : Host.Outcome State Fault Refusal :=
  match accessProblem off n.bytes with
  | some e => .refused (.badTransaction e)
  | none => .next s

end Sys2Proof.Machine
end

