-- ==== Sys2Proof/Machine/Commands.lean ====
section
/-! DEFINITION. CMD: RD_CMD, WR_CMD and the three command words (R78 to R82), with the validation of the image shape
(R133). -/

namespace Sys2Proof.Machine

/-- ValidShape (R133), in exact natural arithmetic: nothing is reduced modulo 2^32. -/
def validShape (r : Regs) : Bool :=
  decide (1 ≤ r.srcWidth.toNat ∧ 1 ≤ r.srcHeight.toNat ∧
    r.srcLen.toNat = r.srcWidth.toNat * r.srcHeight.toNat * 3 ∧ r.srcBase.toNat + r.srcLen.toNat ≤ 2 ^ 32)

/-- A conversion starts (R81): the hidden state is cleared and BUSY set. The interval of R59 starts too, with no
source byte changed in it. An engine that gets here had BUSY = 0, so it is not stuck (R139). -/
def State.startConversion (s : State) : State :=
  { s with eng := Engine.start, status := s.status.started, stuck := false, changed := [] }

/-- The effect of NOP (R80): none. -/
def nopEffect (s : State) : State := s

/-- The effect of an accepted CONVERT (R81). -/
def convertEffect (s : State) : State :=
  if validShape s.regs then { s with status := s.status.accepted }.startConversion
  else { s with status := s.status.accepted }.raise .invalidImageDimensions

/-- The effect of a reserved command word (R82, R136). -/
def cmdReservedEffect (s : State) : State := s.raise .illegalCommand

/-- The effect of a command word with BUSY = 0 (R79). -/
def commandEffect (data : Word) (s : State) : State :=
  match decodeCmdRow data with
  | .nop => nopEffect s
  | .convert => convertEffect s
  | .cmdReserved => cmdReservedEffect s

/-- RD_CMD (R78). -/
def execRdCmd (s : State) : Host.Outcome State Fault Refusal := .next (s.returnData 0)

/-- WR_CMD (R79): the BUSY check comes before the word is decoded (R141). -/
def execWrCmd (data : Word) (s : State) : Host.Outcome State Fault Refusal :=
  .next (gatedWrite s (commandEffect data))

/-- NOP (R80): a write of the word 0x00000000 to CMD. DEDUCED (assumption 14): so BUSY gates it like that write. -/
def execNop (s : State) : Host.Outcome State Fault Refusal := .next (gatedWrite s nopEffect)

/-- CONVERT (R81): a write of the word 0x00000001 to CMD. -/
def execConvert (s : State) : Host.Outcome State Fault Refusal := .next (gatedWrite s convertEffect)

/-- CMD_RESERVED (R82): a write of any other word to CMD. Every such word has the same effect. -/
def execCmdReserved (_opc : Word) (s : State) : Host.Outcome State Fault Refusal :=
  .next (gatedWrite s cmdReservedEffect)

end Sys2Proof.Machine
end

