-- ==== Sys2Proof/Machine/ConfigRegs.lean ====
section
/-! DEFINITION. STATUS (R83, R84) and the configuration registers (R85 to R94). -/

namespace Sys2Proof.Machine

/-- RD_STATUS (R83). -/
def execRdStatus (s : State) : Host.Outcome State Fault Refusal := .next (s.returnData s.status.word)

/-- WR_STATUS (R84): no state changes, not even WIGN. -/
def execWrStatus (_data : Word) (s : State) : Host.Outcome State Fault Refusal := .next s

/-- reg[SRC_BASE] <- w (R29). -/
def State.setSrcBase (s : State) (w : Word) : State := { s with regs := { s.regs with srcBase := w } }

/-- reg[SRC_LEN] <- w (R30). -/
def State.setSrcLen (s : State) (w : Word) : State := { s with regs := { s.regs with srcLen := w } }

/-- reg[SRC_WIDTH] <- w (R31). -/
def State.setSrcWidth (s : State) (w : Word) : State := { s with regs := { s.regs with srcWidth := w } }

/-- reg[SRC_HEIGHT] <- w (R32). -/
def State.setSrcHeight (s : State) (w : Word) : State := { s with regs := { s.regs with srcHeight := w } }

/-- reg[THRESHOLD].T <- t (R33). -/
def State.setThreshold (s : State) (t : Byte) : State := { s with regs := { s.regs with threshold := t } }

/-- RD_SRC_BASE (R85). -/
def execRdSrcBase (s : State) : Host.Outcome State Fault Refusal := .next (s.returnData s.regs.srcBase)

/-- WR_SRC_BASE (R86). -/
def execWrSrcBase (data : Word) (s : State) : Host.Outcome State Fault Refusal :=
  .next (gatedWrite s (·.setSrcBase data))

/-- RD_SRC_LEN (R87). -/
def execRdSrcLen (s : State) : Host.Outcome State Fault Refusal := .next (s.returnData s.regs.srcLen)

/-- WR_SRC_LEN (R88). -/
def execWrSrcLen (data : Word) (s : State) : Host.Outcome State Fault Refusal :=
  .next (gatedWrite s (·.setSrcLen data))

/-- RD_SRC_WIDTH (R89). -/
def execRdSrcWidth (s : State) : Host.Outcome State Fault Refusal := .next (s.returnData s.regs.srcWidth)

/-- WR_SRC_WIDTH (R90). -/
def execWrSrcWidth (data : Word) (s : State) : Host.Outcome State Fault Refusal :=
  .next (gatedWrite s (·.setSrcWidth data))

/-- RD_SRC_HEIGHT (R91). -/
def execRdSrcHeight (s : State) : Host.Outcome State Fault Refusal := .next (s.returnData s.regs.srcHeight)

/-- WR_SRC_HEIGHT (R92). -/
def execWrSrcHeight (data : Word) (s : State) : Host.Outcome State Fault Refusal :=
  .next (gatedWrite s (·.setSrcHeight data))

/-- RD_THRESHOLD (R93). -/
def execRdThreshold (s : State) : Host.Outcome State Fault Refusal :=
  .next (s.returnData (thresholdWord s.regs.threshold))

/-- WR_THRESHOLD (R94): data[31:8] is dropped. -/
def execWrThreshold (data : Word) (s : State) : Host.Outcome State Fault Refusal :=
  .next (gatedWrite s (·.setThreshold (thresholdOperand data)))

end Sys2Proof.Machine
end

