-- ==== Sys2Proof/Machine/OutWindow.lean ====
section
/-! DEFINITION. The OUT window (R95, R96) and the reserved offsets (R97, R98). -/

namespace Sys2Proof.Machine

/-- RD_OUT (R95). -/
def execRdOut (k : BitVec 10) (n : Size) (s : State) : Host.Outcome State Fault Refusal :=
  ifLegal (outOffset k) n (s.returnData (outData s k.toNat n.bytes))

/-- WR_OUT (R96): no state changes, not even WIGN. -/
def execWrOut (k : BitVec 10) (n : Size) (_data : Word) (s : State) : Host.Outcome State Fault Refusal :=
  ifLegal (outOffset k) n s

/-- RD_RESERVED (R97, R53). -/
def execRdReserved (off : BitVec 12) (n : Size) (s : State) : Host.Outcome State Fault Refusal :=
  ifLegal off n (s.returnData 0)

/-- WR_RESERVED (R98, R53): no state changes, not even WIGN. -/
def execWrReserved (off : BitVec 12) (n : Size) (_data : Word) (s : State) : Host.Outcome State Fault Refusal :=
  ifLegal off n s

end Sys2Proof.Machine
end

