-- ==== Sys2Proof/Machine/Dispatch.lean ====
section
/-! DEFINITION. What each instruction does: one arm per constructor of Instr. -/

namespace Sys2Proof.Machine

def exec (i : Instr) (s : State) : Host.Outcome State Fault Refusal :=
  match i with
  | .wrCmd data => Sys2Proof.Machine.execWrCmd data s
  | .rdCmd => Sys2Proof.Machine.execRdCmd s
  | .rdStatus => Sys2Proof.Machine.execRdStatus s
  | .wrStatus data => Sys2Proof.Machine.execWrStatus data s
  | .rdSrcBase => Sys2Proof.Machine.execRdSrcBase s
  | .wrSrcBase data => Sys2Proof.Machine.execWrSrcBase data s
  | .rdSrcLen => Sys2Proof.Machine.execRdSrcLen s
  | .wrSrcLen data => Sys2Proof.Machine.execWrSrcLen data s
  | .rdSrcWidth => Sys2Proof.Machine.execRdSrcWidth s
  | .wrSrcWidth data => Sys2Proof.Machine.execWrSrcWidth data s
  | .rdSrcHeight => Sys2Proof.Machine.execRdSrcHeight s
  | .wrSrcHeight data => Sys2Proof.Machine.execWrSrcHeight data s
  | .rdThreshold => Sys2Proof.Machine.execRdThreshold s
  | .wrThreshold data => Sys2Proof.Machine.execWrThreshold data s
  | .rdOut k n => Sys2Proof.Machine.execRdOut k n s
  | .wrOut k n data => Sys2Proof.Machine.execWrOut k n data s
  | .rdReserved off n => Sys2Proof.Machine.execRdReserved off n s
  | .wrReserved off n data => Sys2Proof.Machine.execWrReserved off n data s
  | .nop => Sys2Proof.Machine.execNop s
  | .convert => Sys2Proof.Machine.execConvert s
  | .cmdReserved opc => Sys2Proof.Machine.execCmdReserved opc s

end Sys2Proof.Machine
end

