-- ==== Sys2Proof/Machine/Luminance.lean ====
section
/-! DEFINITION. Steps 2 and 3, average and threshold (42_luminance.md). Unsigned integers only (R120); no flag records
an overflow (R37). -/

namespace Sys2Proof.Machine

/-- Avg(r, g, b) (R112): the sum modulo 256 with WRAP8 (R113), the whole sum with WIDE (R114), divided by 3. -/
def avg : AvgMode → (r g b : Byte) → Nat
  | .wrap8, r, g, b => (r.toNat + g.toNat + b.toNat) % 256 / 3
  | .wide, r, g, b => (r.toNat + g.toNat + b.toNat) / 3

/-- Thresh(avg, T) (R117): strict greater-than, unsigned. -/
def thresh (a : Nat) (t : Byte) : Bool := decide (t.toNat < a)

/-- The bit of a pixel from its three channels (Steps 2 and 3). -/
def pixelBit (m : AvgMode) (t : Byte) (c : Byte × Byte × Byte) : Bool := thresh (avg m c.1 c.2.1 c.2.2) t

end Sys2Proof.Machine
end

