-- ==== Sys2Proof/Machine/Pack.lean ====
section
/-! DEFINITION. Step 4, bit packing (43_pack.md). -/

namespace Sys2Proof.Machine

/-- `bit << (7 - nb)` in one byte (R122). -/
def placeBit (bit : Bool) (nb : Nat) : Byte := if bit then 1#8 <<< (7 - nb) else 0#8

/-- EmitNow (R123): eight pixels, or the end of a display row, or the last pixel of the image. All three terms are
kept, as R125 asks. -/
def emitNow (nb dx i : Nat) : Bool := nb == 8 || dx == dstW - 1 || i == nPix - 1

/-- Emit (R124). DESIGN CHOICE (assumption 16): an index outside OUT, which no conversion reaches (R126), writes
nothing. -/
def State.emit (s : State) (acc : Byte) : State :=
  { s with
    out := s.out.setIfInBounds s.eng.oidx acc
    eng := { s.eng with oidx := s.eng.oidx + 1, acc := 0, nb := 0 } }

/-- The other branch of PackStep (R122): the bit is kept in the accumulator. -/
def State.accumulate (s : State) (acc : Byte) (nb : Nat) : State := { s with eng := { s.eng with acc := acc, nb := nb } }

/-- PackStep (R122). -/
def State.packStep (s : State) (bit : Bool) (dx i : Nat) : State :=
  if emitNow (s.eng.nb + 1) dx i then s.emit (s.eng.acc ||| placeBit bit s.eng.nb)
  else s.accumulate (s.eng.acc ||| placeBit bit s.eng.nb) (s.eng.nb + 1)

end Sys2Proof.Machine
end

