-- ==== Sys2Proof/Machine/Resize.lean ====
section
/-! DEFINITION. Step 1, nearest-neighbour resize (41_resize.md): the index maps, the address of a source channel, the
engine's read of one source byte, and the fetch of a resized pixel. Exact natural arithmetic throughout (R111). -/

namespace Sys2Proof.Machine

/-- MapX(dx) for a source of width w (R104, R105). -/
def mapX : NnMap → (w dx : Nat) → Nat
  | .center, w, dx => (2 * dx + 1) * w / 256
  | .floor, w, dx => dx * w / 128

/-- MapY(dy) for a source of height h (R104, R105). -/
def mapY : NnMap → (h dy : Nat) → Nat
  | .center, h, dy => (2 * dy + 1) * h / 128
  | .floor, h, dy => dy * h / 64

/-- SrcAddr(x, y, c) (R46). -/
def srcAddr (base w x y c : Nat) : Nat := base + 3 * (y * w + x) + c

/-- The address p of channel 0 of the source pixel that destination pixel (dx, dy) takes (R110). -/
def pixelAddr (m : NnMap) (r : Regs) (dx dy : Nat) : Nat :=
  srcAddr r.srcBase.toNat r.srcWidth.toNat (mapX m r.srcWidth.toNat dx) (mapY m r.srcHeight.toNat dy) 0

/-- The column of raster index i (R121). -/
def pixelX (i : Nat) : Nat := i % 128

/-- The row of raster index i (R121). -/
def pixelY (i : Nat) : Nat := i / 128

/-- The same address for raster index i in the present state. -/
def State.pixelAddr (s : State) (i : Nat) : Nat :=
  Sys2Proof.Machine.pixelAddr s.params.nnMap s.regs (pixelX i) (pixelY i)

/-- What the engine's read for raster index i of the source byte at `a` returns: nothing where the platform backs no
byte (R45), a free draw where the byte changed since the accepted CONVERT (R59), else the byte. -/
def sourceRead (s : State) (i a : Nat) : Option Byte :=
  match s.source.read a with
  | none => none
  | some b => if a ∈ s.changed then some (Config.changedSourceByte s.tick i a) else some b

/-- FetchResized (R110) for raster index i: red, green, blue, in that order. -/
def fetchResized (s : State) (i : Nat) : Option (Byte × Byte × Byte) :=
  match sourceRead s i (s.pixelAddr i) with
  | none => none
  | some r =>
    match sourceRead s i (s.pixelAddr i + 1) with
    | none => none
    | some g =>
      match sourceRead s i (s.pixelAddr i + 2) with
      | none => none
      | some b => some (r, g, b)

end Sys2Proof.Machine
end

