-- ==== Sys2Proof/Machine/EngineStep.lean ====
section
/-! DEFINITION. ENGINE_STEP (R99): the four steps of the source for one destination pixel, in one atomic step. -/

namespace Sys2Proof.Machine

/-- After packing the pixel of raster index i: the last one ends the conversion, any other moves the index on by 1
(R99, R20). -/
def State.nextPixel (s : State) (i : Nat) : State :=
  if i = nPix - 1 then { s with status := s.status.finished, eng := { s.eng with pix := 0 } }
  else { s with eng := { s.eng with pix := i + 1 } }

/-- What ENGINE_STEP does with the channels it fetched for its pixel (R99, Steps 2 to 4). -/
def State.pixelDone (s : State) (c : Byte × Byte × Byte) : State :=
  (s.packStep (pixelBit s.params.avgMode s.regs.threshold c) (pixelX s.eng.pix) s.eng.pix).nextPixel s.eng.pix

/-- The model's own counter moves on, so that later free values are other draws. -/
def State.nextDraw (s : State) : State := { s with tick := s.tick + 1 }

/-- A source read without an answer: the engine step has no step, and from now on the engine is stuck (R45, R139). -/
def State.getStuck (s : State) : State := { s with stuck := true }

/-- Whether the engine step is enabled: BUSY = 1 (R24, R160), and the engine is not stuck (R139). -/
def State.engineEnabled (s : State) : Bool := s.status.busy && !s.stuck

/-- The engine's turn: where its step is enabled it takes ENGINE_STEP, or gets stuck where a source read has no answer
(R45, R139). With BUSY = 0, or stuck, it has no step and the turn passes (R24; assumptions 11 and 17). -/
def engineTurn (s : State) : Host.Outcome State Fault Refusal :=
  if s.engineEnabled then
    match fetchResized s s.eng.pix with
    | none => .next s.getStuck
    | some c => .next (s.pixelDone c).nextDraw
  else .next s

end Sys2Proof.Machine
end

