-- ==== Sys2Proof/Machine/Platform.lean ====
section
/-! DEFINITION. The platform's turns (R18, R44): source bytes that change, and what R59 says of a change inside the
buffer while a conversion runs: every engine read of that byte in the interval returns any value, so the bits that
depend on it and are already packed are drawn again. -/

namespace Sys2Proof.Machine

/-- Whether an address lies in the buffer the engine reads: SRC_BASE to SRC_BASE + SRC_LEN - 1 (R45). -/
def inBuffer (r : Regs) (a : Nat) : Bool := r.srcBase.toNat ≤ a && a < r.srcBase.toNat + r.srcLen.toNat

/-- Whether the pixel of raster index i takes a channel from address `a` (R110). -/
def State.pixelUses (s : State) (i a : Nat) : Bool :=
  a == s.pixelAddr i || a == s.pixelAddr i + 1 || a == s.pixelAddr i + 2

/-- A channel as an earlier read of it may have been: any value where the byte changed (R59). -/
def redrawnByte (s : State) (i a : Nat) : Byte := (sourceRead s i a).getD (Config.changedSourceByte s.tick i a)

/-- The bit of an already packed pixel, taken again from channels of which a changed one is any value (R59). -/
def redrawnBit (s : State) (i : Nat) : Bool :=
  pixelBit s.params.avgMode s.regs.threshold
    (redrawnByte s i (s.pixelAddr i), redrawnByte s i (s.pixelAddr i + 1), redrawnByte s i (s.pixelAddr i + 2))

/-- A byte with the bit of its pixel number `nb` replaced. -/
def replaceBit (x : Byte) (nb : Nat) (bit : Bool) : Byte := (x &&& ~~~(placeBit true nb)) ||| placeBit bit nb

/-- A packed byte whose first pixel has raster index `first` and which holds n pixels, with the bits of those pixels
that take a channel from `a` drawn again. -/
def redrawnPixels (s : State) (a first : Nat) (x : Byte) : Nat → Byte
  | 0 => x
  | n + 1 =>
    if s.pixelUses (first + n) a then replaceBit (redrawnPixels s a first x n) n (redrawnBit s (first + n))
    else redrawnPixels s a first x n

/-- The packed pixels that depend on address `a` drawn again: those of the bytes this conversion has emitted and those
in the accumulator (R59). -/
def State.redraw (s : State) (a : Nat) : State :=
  { s with
    out := Vector.ofFn fun k =>
      if k.val < s.eng.oidx then redrawnPixels s a (8 * k.val) s.out[k] 8 else s.out[k]
    eng := { s.eng with acc := redrawnPixels s a (8 * s.eng.oidx) s.eng.acc s.eng.nb } }

/-- The list with an address entered once. -/
def noteChanged (l : List Nat) (a : Nat) : List Nat := if a ∈ l then l else a :: l

/-- A change of the byte at `a` while a conversion reads the buffer it lies in (R59). DESIGN CHOICE (assumption 7): it is
remembered, and the packed bits that rest on it are drawn again. -/
def State.sourceChanged (s : State) (a : Nat) : State :=
  State.redraw { s with changed := noteChanged s.changed a } a

/-- The platform's memory becomes `m`, which differs at address `a` alone. A change outside the buffer, or with
BUSY = 0, concerns no conversion (R59, R156). -/
def State.setSource (s : State) (m : Memory) (a : Nat) : State :=
  if m.read a = s.source.read a then { s with source := m }
  else if s.status.busy && inBuffer s.regs a then State.sourceChanged { s with source := m } a
  else { s with source := m }

/-- The platform writes one byte of source memory (R44). -/
def platformWrite (a : BitVec 32) (b : Byte) (s : State) : State := s.setSource (s.source.write a b) a.toNat

/-- The platform ceases to back one byte of source memory (R45). -/
def platformUnback (a : BitVec 32) (s : State) : State := s.setSource (s.source.unback a) a.toNat

end Sys2Proof.Machine
end

