-- ==== Sys2Proof/Machine/HostTurn.lean ====
section
/-! DEFINITION. The host's turn (R18, R77): the next statement of a host program (R75) is fetched; a transaction is
decoded and performed, a branch is the host's own. -/

namespace Sys2Proof.Machine

/-- A host variable (R75). DESIGN CHOICE (assumption 8): one that nothing has written holds 0. -/
def HostAgent.var (h : HostAgent) (r : Nat) : Word := (Cells.read h.vars r).getD 0

/-- r <- w in a host's variables, in canonical form: one that holds 0 is not listed. -/
def HostAgent.setVar (h : HostAgent) (r : Nat) (w : Word) : HostAgent :=
  { h with vars := if w = 0 then Cells.erase h.vars r else Cells.write h.vars r w }

/-- The statement host agent k comes to next. -/
def State.fetch (s : State) (k : Nat) : Option HostOp :=
  match s.hosts[k]? with
  | none => none
  | some h => h.prog[h.pc]?

/-- A change of host agent k alone. -/
def State.onHost (s : State) (k : Nat) (f : HostAgent → HostAgent) : State := { s with hosts := s.hosts.modify k f }

/-- The host goes on with its next statement. -/
def HostAgent.advance (h : HostAgent) : HostAgent := { h with pc := h.pc + 1 }

/-- A read's data word reaches the host: it is observed (R162) and goes to the statement's variable (R75). -/
def State.latch (s : State) (k : Nat) (dst : Option Nat) : State :=
  { s with observed := s.observed ++ [s.readData] }.onHost k fun h =>
    match dst with
    | none => h
    | some r => h.setVar r s.readData

/-- What a host's turn adds around the instruction it performed: the program moves on; a read hands over its data; a
write moves the model's own counter on, so that a read of OUT after it while BUSY = 1 is another draw (R52, R58).
DESIGN CHOICE (assumption 4). -/
def State.retire (s : State) (k : Nat) (i : Instr) (dst : Option Nat) : State :=
  if i.isRead then (s.latch k dst).onHost k HostAgent.advance
  else s.nextDraw.onHost k HostAgent.advance

/-- A branch of host agent k (R75): taken to the target, else to the next statement. DESIGN CHOICE (assumption 19): it
takes a turn of its own. -/
def State.branch (s : State) (k : Nat) (taken : Bool) (target : Nat) : State :=
  s.onHost k fun h => if taken then { h with pc := target } else h.advance

/-- The value of a branch's test: r AND MASK = 0 (R75). -/
def State.maskedZero (s : State) (k r : Nat) (mask : Word) : Bool :=
  match s.hosts[k]? with
  | none => true
  | some h => h.var r &&& mask == 0

/-- One transaction of host agent k (R77): refused by name where R49 forbids it (R138), else decoded and performed. -/
def hostTransaction (s : State) (k : Nat) (t : Txn) (dst : Option Nat) : Host.Outcome State Fault Refusal :=
  match decodeBus t with
  | .error e => .refused (.badTransaction e)
  | .ok i => andThen (exec i s) (·.retire k i dst)

/-- The turn of host agent k. A host that does not exist, or has issued its last statement, lets the turn pass.
DESIGN CHOICE (assumption 17). -/
def hostTurn (s : State) (k : Nat) : Host.Outcome State Fault Refusal :=
  match s.fetch k with
  | none => .next s
  | some (.bus t dst) => hostTransaction s k t dst
  | some (.bz r mask target) => .next (s.branch k (s.maskedZero k r mask) target)
  | some (.bnz r mask target) => .next (s.branch k (!s.maskedZero k r mask) target)

/-- One agent's turn (R18, R56). Reset may come between any two steps (R151). -/
def takeTurn (s : State) : Turn → Host.Outcome State Fault Refusal
  | .host k => hostTurn s k
  | .engine => engineTurn s
  | .platformWrite a b => .next (platformWrite a b s)
  | .platformUnback a => .next (platformUnback a s)
  | .reset => .next s.resetEngine

/-- With no turn planned, a turn that is weakly fair to the engine (R160): the engine's while its step is enabled, else
the first host's. DESIGN CHOICE (assumption 3). -/
def unplannedTurn (s : State) : Turn := if s.engineEnabled then .engine else .host 0

/-- The turn that comes next: the first planned one, else an unplanned one. -/
def State.nextTurn (s : State) : Turn := s.turns.head?.getD (unplannedTurn s)

/-- A planned turn is taken off the plan. -/
def State.dropTurn (s : State) : State := { s with turns := s.turns.tail }

/-- The program with one statement that performs a row's bits, for the first host. -/
def loadOne (hosts : List HostAgent) (t : Txn) : List HostAgent :=
  match hosts with
  | [] => [{ prog := [.bus t none], pc := 0, vars := [] }]
  | h :: rest => { h with prog := [.bus t none], pc := 0 } :: rest

end Sys2Proof.Machine
end

