-- ==== Sys2Proof/Machine/Step.lean ====
section
/-! DEFINITION. One step of the machine: one atomic step of one agent (R43, R56). -/

namespace Sys2Proof.Machine

/-- One step: the agent whose turn it is takes it. -/
def step (s : State) : Host.Outcome State Fault Refusal := takeTurn s.dropTurn s.nextTurn

/-- The state in which a row's bits are what the next step performs: the first host's program is that one
transaction, and the next turn is that host's. -/
def State.withFetchWord (s : State) (nbits w : Nat) : State :=
  { s with hosts := loadOne s.hosts (txnOfTableWord nbits w), turns := .host 0 :: s.turns }

end Sys2Proof.Machine
end

