-- ==== Sys2Proof/Machine/Asm.lean ====
section
/-! DEFINITION. The notation of host programs (R75), its pseudo-instructions (R76), and their assembly into the
statements a host agent runs. Labels and host variables are numbers here (assumption 8). -/

namespace Sys2Proof.Machine

/-- The offsets that register names stand for (R21, R75). -/
abbrev offCmd : BitVec 12 := 0x000
abbrev offStatus : BitVec 12 := 0x004
abbrev offSrcBase : BitVec 12 := 0x008
abbrev offSrcLen : BitVec 12 := 0x00C
abbrev offSrcWidth : BitVec 12 := 0x010
abbrev offSrcHeight : BitVec 12 := 0x014
abbrev offThreshold : BitVec 12 := 0x018

/-- One line of a host program (R75). -/
inductive AsmLine where
  | wr (off : BitVec 12) (v : Word)
  | rd (off : BitVec 12) (r : Nat)
  | rdh (off : BitVec 12) (r : Nat)
  | rdb (off : BitVec 12) (r : Nat)
  | bz (r : Nat) (mask : Word) (label : Nat)
  | bnz (r : Nat) (mask : Word) (label : Nat)
  | label (name : Nat)
  | mem (a : BitVec 32) (bytes : List Byte)
deriving DecidableEq, Repr

/-- BusWrite(OFF, 4, V): descriptor 0x1000 | OFF (R75). -/
def busWrite (off : BitVec 12) (v : Word) : Txn := ⟨0x1000 ||| off.setWidth 13, 4, v⟩

/-- BusRead(OFF, n): descriptor OFF (R75). -/
def busRead (off : BitVec 12) (n : Nat) : Txn := ⟨off.setWidth 13, n, 0⟩

/-- Whether a line becomes a statement of the program: labels and `mem` do not. -/
def AsmLine.isOp : AsmLine → Bool
  | .wr _ _ => true
  | .rd _ _ => true
  | .rdh _ _ => true
  | .rdb _ _ => true
  | .bz _ _ _ => true
  | .bnz _ _ _ => true
  | .label _ => false
  | .mem _ _ => false

/-- The position of a label: the number of statements before it. DESIGN CHOICE (assumption 21): R75 does not say where a
branch goes whose label is placed more than once; here it goes to the first placement. -/
def labelAt : List AsmLine → Nat → Option Nat
  | [], _ => none
  | .label m :: rest, l => if m = l then some 0 else labelAt rest l
  | line :: rest, l => (labelAt rest l).map fun p => if line.isOp then p + 1 else p

/-- The statement of one line of a program (R75), where its label is placed. -/
def AsmLine.op (prog : List AsmLine) : AsmLine → Option HostOp
  | .wr off v => some (.bus (busWrite off v) none)
  | .rd off r => some (.bus (busRead off 4) (some r))
  | .rdh off r => some (.bus (busRead off 2) (some r))
  | .rdb off r => some (.bus (busRead off 1) (some r))
  | .bz r mask l => (labelAt prog l).map (HostOp.bz r mask)
  | .bnz r mask l => (labelAt prog l).map (HostOp.bnz r mask)
  | .label _ => none
  | .mem _ _ => none

/-- The statements of a program, or none where a branch names a label the program does not place. -/
def assembleProgram (prog : List AsmLine) : Option (List HostOp) :=
  (prog.filter AsmLine.isOp).mapM (AsmLine.op prog)

/-- The source memory of the start state that a program's `mem` lines give (R75). DESIGN CHOICE (assumption 22): R75 does
not say which byte holds where two lines give one address different bytes; here the later line's does. -/
def startSource (m : Memory) : List AsmLine → Memory
  | [] => m
  | .mem a bytes :: rest => startSource (m.place a bytes) rest
  | .wr _ _ :: rest => startSource m rest
  | .rd _ _ :: rest => startSource m rest
  | .rdh _ _ :: rest => startSource m rest
  | .rdb _ _ :: rest => startSource m rest
  | .bz _ _ _ :: rest => startSource m rest
  | .bnz _ _ _ :: rest => startSource m rest
  | .label _ :: rest => startSource m rest

/-- `nop` (R76). -/
def asmNop : List AsmLine := [.wr offCmd 0x00000000]

/-- `convert` (R76). -/
def asmConvert : List AsmLine := [.wr offCmd 0x00000001]

/-- `wait_done` (R76): poll STATUS into `r` until DONE, at the fresh label `l`. -/
def asmWaitDone (r l : Nat) : List AsmLine := [.label l, .rd offStatus r, .bz r 0x2 l]

/-- `config B, N, W, H, T` (R76). -/
def asmConfig (b n w h t : Word) : List AsmLine :=
  [.wr offSrcBase b, .wr offSrcLen n, .wr offSrcWidth w, .wr offSrcHeight h, .wr offThreshold t]

/-- `rdout k -> r` (R76): OUT+k is the offset 0x400 + k. -/
def asmRdout (k : BitVec 10) (r : Nat) : List AsmLine := [.rdb (outOffset k) r]

/-- A host agent at the first statement of a program, where the program assembles. -/
def hostOf (prog : List AsmLine) : Option HostAgent :=
  (assembleProgram prog).map fun ops => { prog := ops, pc := 0, vars := [] }

end Sys2Proof.Machine
end

