-- ==== Sys2Proof/Machine/Convert.lean ====
section
/-! DEFINITION. The whole conversion as one function of the image, the threshold and the parameters (R127, R131),
which claims compare the engine with; the step does not use it. -/

namespace Sys2Proof.Machine

/-- A source image: the three channels of the pixel in column x and row y (R17). -/
abbrev Image := (x y : Nat) → Byte × Byte × Byte

/-- Bit(x, y) of R127: the bit of destination pixel (x, y) of an image of w × h pixels. -/
def destBit (p : Params) (img : Image) (w h : Nat) (t : Byte) (x y : Nat) : Bool :=
  pixelBit p.avgMode t (img (mapX p.nnMap w x) (mapY p.nnMap h y))

/-- OUT[k] of R127, as the sum the spec writes. -/
def convertByte (p : Params) (img : Image) (w h : Nat) (t : Byte) (k : Nat) : Nat :=
  ((List.range 8).map fun b => (destBit p img w h t (8 * (k % 16) + b) (k / 16)).toNat * 2 ^ (7 - b)).sum

/-- A source byte as a number to compute with. A claim that uses it assumes the byte backed (R45). -/
def sourceByte (s : State) (a : Nat) : Byte := (s.source.read a).getD 0

/-- The image in source memory (R46). -/
def State.image (s : State) : Image := fun x y =>
  (sourceByte s (srcAddr s.regs.srcBase.toNat s.regs.srcWidth.toNat x y 0),
   sourceByte s (srcAddr s.regs.srcBase.toNat s.regs.srcWidth.toNat x y 1),
   sourceByte s (srcAddr s.regs.srcBase.toNat s.regs.srcWidth.toNat x y 2))

/-- Bit(x, y) for the image, the threshold and the parameters of a state. -/
def State.destBit (s : State) (x y : Nat) : Bool :=
  Sys2Proof.Machine.destBit s.params s.image s.regs.srcWidth.toNat s.regs.srcHeight.toNat s.regs.threshold x y

/-- Byte k of Convert(S, T) (R131) for the image, the threshold and the parameters of a state. -/
def State.convert (s : State) (k : Nat) : Nat :=
  convertByte s.params s.image s.regs.srcWidth.toNat s.regs.srcHeight.toNat s.regs.threshold k

end Sys2Proof.Machine
end

