-- ==== Sys2Proof/Safety.lean ====
section
/-! DEFINITION. The terms claims use: the platform's duty (R45), the invariant every step keeps, what is packed at a
point of a conversion, and the end of a run (R162). -/

namespace Sys2Proof.Machine

/-- The platform's duty while a conversion runs: every byte of the buffer is backed (R45). -/
def State.backed (s : State) : Prop := ∀ a, inBuffer s.regs a = true → (s.source.read a).isSome = true

/-- A host's variables are in canonical form: numbers rise, none listed holds 0. -/
def HostAgent.varsWf (h : HostAgent) : Prop := Cells.rising h.vars ∧ ∀ c ∈ h.vars, c.2 ≠ 0

/-- STATUS is one the engine can be in: BUSY excludes DONE and ERR (R83, R135), ERR comes with DONE and one of the two
codes, and without ERR the code is 0 (R26, R134). -/
def Status.wf (f : Status) : Prop :=
  (f.busy = true → f.done = false ∧ f.err = false) ∧
  (f.err = true → f.done = true ∧ (f.errCode = 1 ∨ f.errCode = 2)) ∧
  (f.err = false → f.errCode = 0)

/-- The hidden state fits the position of the conversion (R35, R126): after `pix` pixels, pix div 8 bytes are emitted
and pix mod 8 bits filled, and the bits not filled are 0. Between conversions it rests at 0, OIDX but for its last
value. -/
def Engine.wf (e : Engine) (busy : Bool) : Prop :=
  (busy = true → e.pix < nPix ∧ e.nb = e.pix % 8 ∧ e.oidx = e.pix / 8) ∧
  (busy = false → e.pix = 0 ∧ e.nb = 0 ∧ (e.oidx = 0 ∨ e.oidx = outLen)) ∧
  (∀ j, j < 8 - e.nb → e.acc.getLsbD j = false)

/-- The invariant: every step keeps it, and reset has it. -/
structure State.Inv (s : State) : Prop where
  status  : s.status.wf
  engine  : s.eng.wf s.status.busy
  stuck   : s.stuck = true → s.status.busy = true
  shape   : s.status.busy = true → validShape s.regs = true
  memory  : Memory.wf s.source
  changed : s.changed.Nodup ∧ (s.status.busy = true → ∀ a ∈ s.changed, inBuffer s.regs a = true)
  hosts   : ∀ h ∈ s.hosts, h.varsWf

/-- The packed bit of raster index i: in the byte emitted for it, or still in the accumulator (R122). -/
def State.packedBit (s : State) (i : Nat) : Bool :=
  if i / 8 < s.eng.oidx then (outByte s (i / 8)).getLsbD (7 - i % 8) else s.eng.acc.getLsbD (7 - i % 8)

/-- What a conversion has packed so far is right: with no source byte changed in it (R59), every pixel it has processed
is packed as R127 gives. -/
def State.packedRight (s : State) : Prop :=
  s.status.busy = true → s.changed = [] → ∀ i < s.eng.pix, s.packedBit i = s.destBit (pixelX i) (pixelY i)

/-- A host program has passed its last statement. DESIGN CHOICE (assumption 23): R162 says 'its last transaction', and that
a host which waits forever has not ended; a host with only branches left has not finished here until it has passed
them. -/
def HostAgent.finished (h : HostAgent) : Bool := h.prog.length ≤ h.pc

/-- A run has ended (R162): every host has finished, trailing branches too (assumption 23), and BUSY = 0. -/
def State.ended (s : State) : Bool := s.hosts.all HostAgent.finished && !s.status.busy

end Sys2Proof.Machine
end

