-- ==== Sys2Proof/Certificates/Slice0/Obligations.lean ====
section
/-! DEFINITION. The statements about the machine, one definition each; OBLIGATIONS.json lists them. The first host's
turn, a state's next turn and what a turn adds around an instruction are the model's own names (Machine/HostTurn.lean). -/

open Sys2Proof Sys2Proof.Machine

/-! ### Encoding and decoding -/

/-- Decoding the encoding of a well-formed instruction gives it back, with every operand (R64, R67, R68, R69). -/
def Obligations.DecodeEncodeRoundTrip : Prop :=
  ∀ i : Instr, i.wellFormed = true → decode (encode i) = .ok i

/-- A transaction that decodes gives a well-formed instruction, whose encoding is that transaction again, less the
data word of a read, which the engine does not see (R64, R71). -/
def Obligations.EncodeDecodeRoundTrip : Prop :=
  ∀ (t : Txn) (i : Instr), decodeBus t = .ok i →
    i.wellFormed = true ∧ encode i = .bus { t with data := if t.isWrite then t.data else 0 }

/-- R49, R138: which transactions are legal, that every other one is refused when a host issues it, and that no legal
one crosses a region boundary. -/
def Obligations.IllegalTransactionsRefused : Prop :=
  ∀ t : Txn,
    ((∃ i, decodeBus t = .ok i) ↔
      (t.off.toNat < 0x400 ∧ t.size = 4 ∧ t.off.toNat % 4 = 0) ∨
      (0x400 ≤ t.off.toNat ∧ (t.size = 1 ∨ t.size = 2 ∨ t.size = 4) ∧ t.off.toNat % t.size = 0)) ∧
    (∀ (s : State) (k : Nat) (dst : Option Nat), (¬ ∃ i, decodeBus t = .ok i) → s.nextTurn = .host k →
      s.fetch k = some (.bus t dst) → ∃ e, step s = .refused (.badTransaction e)) ∧
    (∀ i, decodeBus t = .ok i → ∀ b ∈ [0x01C, 0x400, 0x800, 0x1000], t.off.toNat < b → t.off.toNat + t.size ≤ b)

/-- R68: the rows OUT and RESERVED by the offsets of legal transactions, RD_RESERVED and WR_RESERVED taking exactly
0x01C to 0x3FF and 0x800 to 0xFFF. -/
def Obligations.RowsTakeTheirOffsets : Prop :=
  ∀ t : Txn, accessProblem t.off t.size = none →
    (decodeRow t.desc = .rdReserved ↔
      t.isWrite = false ∧ ((0x01C ≤ t.off.toNat ∧ t.off.toNat ≤ 0x3FF) ∨ 0x800 ≤ t.off.toNat)) ∧
    (decodeRow t.desc = .wrReserved ↔
      t.isWrite = true ∧ ((0x01C ≤ t.off.toNat ∧ t.off.toNat ≤ 0x3FF) ∨ 0x800 ≤ t.off.toNat)) ∧
    (decodeRow t.desc = .rdOut ↔ t.isWrite = false ∧ 0x400 ≤ t.off.toNat ∧ t.off.toNat ≤ 0x7FF) ∧
    (decodeRow t.desc = .wrOut ↔ t.isWrite = true ∧ 0x400 ≤ t.off.toNat ∧ t.off.toNat ≤ 0x7FF)

/-- Words written out from the tables of R68 and R69 decode to their instructions. -/
def Obligations.SampleWordsDecode : Prop :=
  decodeBus ⟨0b1000000000000, 4, 0x00000001⟩ = .ok (.wrCmd 1) ∧
  decodeBus ⟨0b0000000000100, 4, 0⟩ = .ok .rdStatus ∧
  decodeBus ⟨0b1000000010100, 4, 2⟩ = .ok (.wrSrcHeight 2) ∧
  decodeBus ⟨0b0011111111111, 1, 0⟩ = .ok (.rdOut 0x3FF .b1) ∧
  decodeBus ⟨0b0000000011100, 4, 0⟩ = .ok (.rdReserved 0x01C .b4) ∧
  decodeBus ⟨0b1111111111111, 1, 5⟩ = .ok (.wrReserved 0xFFF .b1 5) ∧
  decodeBus ⟨0b0000000000010, 4, 0⟩ = .error .misaligned ∧
  decodeBus ⟨0b0000000000100, 1, 0⟩ = .error .subWordRegister ∧
  decodeBus ⟨0b0000000000100, 3, 0⟩ = .error .badSize ∧
  decodeCmd 0x00000101 = .cmdReserved 0x00000101

/-- R69: the three classes of command words, and that with BUSY = 1 the word is not decoded at all. -/
def Obligations.CommandWordsDecode : Prop :=
  decodeCmd 0x00000000 = .nop ∧ decodeCmd 0x00000001 = .convert ∧
  (∀ w : Word, w ≠ 0x00000000 → w ≠ 0x00000001 → decodeCmd w = .cmdReserved w) ∧
  (∀ (s : State) (v w : Word), s.status.busy = true → exec (.wrCmd v) s = exec (.wrCmd w) s)

/-! ### A step -/

/-- A step of a host whose next statement is a transaction that decodes to i is exec of i, and around it what the
host's turn adds (`retire`). -/
def Obligations.StepRunsTheDecodedInstruction : Prop :=
  ∀ (s : State) (k : Nat) (t : Txn) (dst : Option Nat) (i : Instr), s.nextTurn = .host k →
    s.fetch k = some (.bus t dst) → decodeBus t = .ok i →
    step s =
      match exec i { s with turns := s.turns.tail } with
      | .next u => .next (u.retire k i dst)
      | .fault r => .fault r
      | .refused r => .refused r

/-- What a host's turn adds around an instruction: the program moves on by one statement; a read hands its data word
to the host's variable and to what is observed (R75, R162); nothing of the engine changes. The tick is the model's
own counter (assumption 4). -/
def Obligations.HostTurnHandsOverReadData : Prop :=
  ∀ (u : State) (k : Nat) (i : Instr) (dst : Option Nat) (h : HostAgent), u.hosts[k]? = some h →
    ∃ h' : HostAgent,
      u.retire k i dst =
        { u with
          hosts := u.hosts.set k h'
          observed := if i.isRead then u.observed ++ [u.readData] else u.observed
          tick := if i.isRead then u.tick else u.tick + 1 } ∧
      h'.prog = h.prog ∧ h'.pc = h.pc + 1 ∧
      (∀ r, h.varsWf → h'.var r = if i.isRead = true ∧ dst = some r then u.readData else h.var r)

/-- R75: the branches bz and bnz of a host program, which issue no transaction and change nothing but where that
program goes on. -/
def Obligations.BranchesFollowTheMask : Prop :=
  ∀ (s : State) (k r target : Nat) (mask : Word), s.nextTurn = .host k →
    (s.fetch k = some (.bz r mask target) →
      step s = .next { s with
        turns := s.turns.tail
        hosts := s.hosts.modify k fun h => { h with pc := if h.var r &&& mask = 0 then target else h.pc + 1 } }) ∧
    (s.fetch k = some (.bnz r mask target) →
      step s = .next { s with
        turns := s.turns.tail
        hosts := s.hosts.modify k fun h => { h with pc := if h.var r &&& mask ≠ 0 then target else h.pc + 1 } })

/-- The bits of a row, placed where the machine fetches next, are what the next step performs; a command word is
performed by the write to CMD that carries it (R67). -/
def Obligations.FetchWordRunsTheRow : Prop :=
  ∀ (s : State) (nbits w : Nat) (i : Instr), decodeTableWord nbits w = some i →
    step (s.withFetchWord nbits w) =
      andThen (exec i { s with hosts := loadOne s.hosts (txnOfTableWord nbits w) }) (·.retire 0 i none)

/-- R56, R18: one step is one turn of one agent, in the planned order; with nothing planned, a turn that is fair to the
engine (R160): its own while its step is enabled, else the first host's (assumption 3). -/
def Obligations.StepIsOneTurn : Prop :=
  ∀ s : State,
    (∀ t rest, s.turns = t :: rest → step s = takeTurn { s with turns := rest } t) ∧
    (s.turns = [] → s.status.busy = true → s.stuck = false → step s = engineTurn s) ∧
    (s.turns = [] → s.status.busy = false ∨ s.stuck = true → step s = hostTurn s 0)

/-- R162, R153: where no host has a statement left, a branch included (assumption 23), and BUSY = 0, nothing happens on
its own. -/
def Obligations.EndedRunStays : Prop :=
  ∀ s : State, s.ended = true → s.turns = [] → step s = .next s

/-! ### Reads -/

/-- R78, R85, R87, R89, R91, R93, R97: the reads of CMD, of the configuration registers and of the reserved offsets:
which transactions they are, and that each returns its value in any state and changes nothing else. -/
def Obligations.RegisterReadsReturnTheRegister : Prop :=
  (∀ d : Word,
    decodeBus ⟨0x0000, 4, d⟩ = .ok .rdCmd ∧ decodeBus ⟨0x0008, 4, d⟩ = .ok .rdSrcBase ∧
    decodeBus ⟨0x000C, 4, d⟩ = .ok .rdSrcLen ∧ decodeBus ⟨0x0010, 4, d⟩ = .ok .rdSrcWidth ∧
    decodeBus ⟨0x0014, 4, d⟩ = .ok .rdSrcHeight ∧ decodeBus ⟨0x0018, 4, d⟩ = .ok .rdThreshold) ∧
  ∀ s : State,
    exec .rdCmd s = .next { s with readData := 0x00000000 } ∧
    exec .rdSrcBase s = .next { s with readData := s.regs.srcBase } ∧
    exec .rdSrcLen s = .next { s with readData := s.regs.srcLen } ∧
    exec .rdSrcWidth s = .next { s with readData := s.regs.srcWidth } ∧
    exec .rdSrcHeight s = .next { s with readData := s.regs.srcHeight } ∧
    exec .rdThreshold s = .next { s with readData := s.regs.threshold.setWidth 32 } ∧
    ∀ (off : BitVec 12) (n : Size) (d : Word),
      (0x01C ≤ off.toNat ∧ off.toNat ≤ 0x3FF ∧ n = .b4 ∧ off.toNat % 4 = 0) ∨
        (0x800 ≤ off.toNat ∧ off.toNat % n.bytes = 0) →
      decodeBus ⟨0b0#1 ++ off, n.bytes, d⟩ = .ok (.rdReserved off n) ∧
      exec (.rdReserved off n) s = .next { s with readData := 0 }

/-- R83: a read of STATUS: which transaction it is, and its data word, bit by bit, in any state; nothing else changes.
BUSY and DONE never show 1 together in a state with the invariant. -/
def Obligations.StatusReadLayout : Prop :=
  (∀ d : Word, decodeBus ⟨0x0004, 4, d⟩ = .ok .rdStatus) ∧
  ∀ s : State, ∃ w : Word, exec .rdStatus s = .next { s with readData := w } ∧
    w.getLsbD 0 = s.status.busy ∧ w.getLsbD 1 = s.status.done ∧ w.getLsbD 2 = s.status.err ∧
    w.getLsbD 3 = s.status.wign ∧ (∀ j, j < 4 → w.getLsbD (8 + j) = s.status.errCode.getLsbD j) ∧
    (∀ j, 4 ≤ j → j < 8 → w.getLsbD j = false) ∧ (∀ j, 12 ≤ j → w.getLsbD j = false) ∧
    (s.Inv → ¬ (w.getLsbD 0 = true ∧ w.getLsbD 1 = true))

/-- R95: an OUT read of n bytes at a multiple k of n: which transaction it is; with BUSY = 0 it returns bytes k to
k+n-1, byte k + m in data bits 8m+7 to 8m, the bits above 0; with BUSY = 1 it completes too, with some word, a free
value (R58). Nothing else changes. -/
def Obligations.OutReadReturnsTheBuffer : Prop :=
  ∀ (s : State) (k : BitVec 10) (n : Size) (d : Word), k.toNat % n.bytes = 0 →
    decodeBus ⟨0b001#3 ++ k, n.bytes, d⟩ = .ok (.rdOut k n) ∧
    ∃ w : Word, exec (.rdOut k n) s = .next { s with readData := w } ∧
      (s.status.busy = false →
        ∀ j, w.getLsbD j = (decide (j < 8 * n.bytes) && (outByte s (k.toNat + j / 8)).getLsbD (j % 8)))

/-- R49: the forms of the rows with sizes that break it are refused. -/
def Obligations.MisalignedFormsRefused : Prop :=
  ∀ (s : State) (n : Size) (d : Word),
    (∀ k : BitVec 10, k.toNat % n.bytes ≠ 0 →
      exec (.rdOut k n) s = .refused (.badTransaction .misaligned) ∧
      exec (.wrOut k n d) s = .refused (.badTransaction .misaligned)) ∧
    (∀ off : BitVec 12, (off.toNat < 0x400 ∧ n ≠ .b4) ∨ off.toNat % n.bytes ≠ 0 →
      (∃ e, exec (.rdReserved off n) s = .refused (.badTransaction e)) ∧
      (∃ e, exec (.wrReserved off n d) s = .refused (.badTransaction e)))

/-- R52: a host read changes nothing but the data word it returns. -/
def Obligations.HostReadsHaveNoSideEffect : Prop :=
  ∀ (i : Instr) (s t : State), i.isRead = true → exec i s = .next t → t = { s with readData := t.readData }

/-- R52: two host reads of one offset with no write and no engine step between them return the same data. That this
holds of OUT while BUSY = 1 too is the model's choice (assumption 4, unsafe for just this form): R58 gives each such byte
a free draw, on which no claim may rest, and the derived sentence of R52 makes no exception for it. -/
def Obligations.RepeatedReadsAgree : Prop :=
  ∀ (s u v : State) (j k : Nat) (t : Txn) (d e : Option Nat) (i : Instr), decodeBus t = .ok i → i.isRead = true →
    s.nextTurn = .host j → s.fetch j = some (.bus t d) → step s = .next u →
    u.nextTurn = .host k → u.fetch k = some (.bus t e) → step u = .next v → v.readData = u.readData

/-! ### Writes -/

/-- R86, R88, R90, R92, R94: the writes to the configuration registers: which transactions they are; with BUSY = 0 each
stores its operand (R65) and changes nothing else; with BUSY = 1 it sets WIGN and changes nothing else (R77). -/
def Obligations.ConfigWritesTakeEffect : Prop :=
  ∀ (s : State) (d : Word),
    (decodeBus ⟨0x1008, 4, d⟩ = .ok (.wrSrcBase d) ∧ decodeBus ⟨0x100C, 4, d⟩ = .ok (.wrSrcLen d) ∧
      decodeBus ⟨0x1010, 4, d⟩ = .ok (.wrSrcWidth d) ∧ decodeBus ⟨0x1014, 4, d⟩ = .ok (.wrSrcHeight d) ∧
      decodeBus ⟨0x1018, 4, d⟩ = .ok (.wrThreshold d)) ∧
    (s.status.busy = false →
      exec (.wrSrcBase d) s = .next { s with regs := { s.regs with srcBase := d } } ∧
      exec (.wrSrcLen d) s = .next { s with regs := { s.regs with srcLen := d } } ∧
      exec (.wrSrcWidth d) s = .next { s with regs := { s.regs with srcWidth := d } } ∧
      exec (.wrSrcHeight d) s = .next { s with regs := { s.regs with srcHeight := d } } ∧
      exec (.wrThreshold d) s = .next { s with regs := { s.regs with threshold := BitVec.ofNat 8 (d.toNat % 256) } }) ∧
    (s.status.busy = true →
      ∀ i ∈ [Instr.wrSrcBase d, .wrSrcLen d, .wrSrcWidth d, .wrSrcHeight d, .wrThreshold d],
        exec i s = .next { s with status := { s.status with wign := true } })

/-- R77, R27, R137: with BUSY = 1 every write to CMD, of any command word, and to a configuration register sets WIGN and
changes nothing else: ERR and ERR_CODE stay, and no command is decoded. -/
def Obligations.WritesWhileBusyIgnored : Prop :=
  ∀ (s : State) (i : Instr), s.status.busy = true →
    ((∃ d, i = .wrCmd d ∨ i = .wrSrcBase d ∨ i = .wrSrcLen d ∨ i = .wrSrcWidth d ∨ i = .wrSrcHeight d ∨
        i = .wrThreshold d ∨ i = .cmdReserved d) ∨ i = .nop ∨ i = .convert) →
    exec i s = .next { s with status := { s.status with wign := true } }

/-- R84, R96, R98: the writes to STATUS, to OUT and to the reserved offsets: which transactions they are, and that they
change nothing, not even WIGN, in any state. -/
def Obligations.ReadOnlyWritesChangeNothing : Prop :=
  ∀ (s : State) (d : Word),
    (decodeBus ⟨0x1004, 4, d⟩ = .ok (.wrStatus d) ∧ exec (.wrStatus d) s = .next s) ∧
    (∀ (k : BitVec 10) (n : Size), k.toNat % n.bytes = 0 →
      decodeBus ⟨0b101#3 ++ k, n.bytes, d⟩ = .ok (.wrOut k n d) ∧ exec (.wrOut k n d) s = .next s) ∧
    (∀ (off : BitVec 12) (n : Size),
      (0x01C ≤ off.toNat ∧ off.toNat ≤ 0x3FF ∧ n = .b4 ∧ off.toNat % 4 = 0) ∨
        (0x800 ≤ off.toNat ∧ off.toNat % n.bytes = 0) →
      decodeBus ⟨0b1#1 ++ off, n.bytes, d⟩ = .ok (.wrReserved off n d) ∧ exec (.wrReserved off n d) s = .next s)

/-- R29 to R33: a write with BUSY = 0 and then a read of the same register return what was written, all 32 bits of it
or THRESHOLD's 8. -/
def Obligations.ConfigReadsBackWhatWasWritten : Prop :=
  ∀ (s : State) (d : Word), s.status.busy = false →
    (∃ t u, exec (.wrSrcBase d) s = .next t ∧ exec .rdSrcBase t = .next u ∧ u.readData = d) ∧
    (∃ t u, exec (.wrSrcLen d) s = .next t ∧ exec .rdSrcLen t = .next u ∧ u.readData = d) ∧
    (∃ t u, exec (.wrSrcWidth d) s = .next t ∧ exec .rdSrcWidth t = .next u ∧ u.readData = d) ∧
    (∃ t u, exec (.wrSrcHeight d) s = .next t ∧ exec .rdSrcHeight t = .next u ∧ u.readData = d) ∧
    (∃ t u, exec (.wrThreshold d) s = .next t ∧ exec .rdThreshold t = .next u ∧ u.readData = d &&& 0x000000FF)

/-! ### Commands and errors -/

/-- R79: a write to CMD: which transaction it is; it completes in every state; with BUSY = 1 it sets WIGN and nothing
else happens; otherwise it performs the command its word encodes. -/
def Obligations.WriteCmdPerformsItsCommand : Prop :=
  ∀ (s : State) (d : Word),
    decodeBus ⟨0x1000, 4, d⟩ = .ok (.wrCmd d) ∧
    (s.status.busy = true → exec (.wrCmd d) s = .next { s with status := { s.status with wign := true } }) ∧
    ∃ t, exec (.wrCmd d) s = .next t ∧ exec (decodeCmd d) s = .next t

/-- R80: NOP is the command word 0; with BUSY = 0 it changes nothing; with BUSY = 1 it is still a write while busy. -/
def Obligations.NopChangesNothing : Prop :=
  decodeCmd 0x00000000 = .nop ∧
  ∀ s : State,
    (s.status.busy = false → exec .nop s = .next s) ∧
    (s.status.busy = true → exec .nop s = .next { s with status := { s.status with wign := true } })

/-- R81, R133: CONVERT is the command word 1. Accepted with a valid shape it clears DONE, ERR, ERR_CODE and WIGN and the
hidden state, sets BUSY and changes nothing else; with an invalid one it raises INVALID_IMAGE_DIMENSIONS and changes
nothing else. The list of changed source bytes is the model's own (assumption 7), and so is the mark of a stuck engine,
which no engine with BUSY = 0 carries (assumption 11). -/
def Obligations.ConvertStartsOrRejects : Prop :=
  decodeCmd 0x00000001 = .convert ∧
  ∀ s : State, s.status.busy = false →
    (1 ≤ s.regs.srcWidth.toNat ∧ 1 ≤ s.regs.srcHeight.toNat ∧
        s.regs.srcLen.toNat = s.regs.srcWidth.toNat * s.regs.srcHeight.toNat * 3 ∧
        s.regs.srcBase.toNat + s.regs.srcLen.toNat ≤ 2 ^ 32 →
      exec .convert s = .next { s with
        status := { busy := true, done := false, err := false, wign := false, errCode := 0 }
        eng := { pix := 0, acc := 0, nb := 0, oidx := 0 }
        stuck := false
        changed := [] }) ∧
    (¬ (1 ≤ s.regs.srcWidth.toNat ∧ 1 ≤ s.regs.srcHeight.toNat ∧
        s.regs.srcLen.toNat = s.regs.srcWidth.toNat * s.regs.srcHeight.toNat * 3 ∧
        s.regs.srcBase.toNat + s.regs.srcLen.toNat ≤ 2 ^ 32) →
      exec .convert s = .next { s with
        status := { busy := false, done := true, err := true, wign := false, errCode := 1 } })

/-- R82, R136: every command word but 0 and 1 is a reserved command; with BUSY = 0 it raises ILLEGAL_COMMAND and changes
nothing else, WIGN included. An earlier code is overwritten (R143). -/
def Obligations.ReservedCommandRaises : Prop :=
  ∀ (s : State) (w : Word), s.status.busy = false → w ≠ 0x00000000 → w ≠ 0x00000001 →
    decodeCmd w = .cmdReserved w ∧
    exec (.cmdReserved w) s = .next { s with
      status := { s.status with done := true, err := true, errCode := 2 } } ∧
    exec (.wrCmd w) s = .next { s with
      status := { s.status with done := true, err := true, errCode := 2 } }

/-- R158: the STATUS read after an accepted CONVERT never shows an older completion: it shows BUSY, or the error of
this very command. -/
def Obligations.NoStaleCompletion : Prop :=
  ∀ s : State, s.status.busy = false → ∃ t u, exec .convert s = .next t ∧ exec .rdStatus t = .next u ∧
    ((validShape s.regs = true ∧ u.readData = 0x00000001) ∨ (validShape s.regs = false ∧ u.readData = 0x00000106))

/-! ### Step 1 -/

/-- R106: both maps stay in range, are non-decreasing, and every address the engine reads lies in the buffer. -/
def Obligations.MapsStayInRange : Prop :=
  ∀ (m : NnMap) (r : Regs), validShape r = true →
    (∀ dx, dx ≤ 127 → mapX m r.srcWidth.toNat dx ≤ r.srcWidth.toNat - 1) ∧
    (∀ dy, dy ≤ 63 → mapY m r.srcHeight.toNat dy ≤ r.srcHeight.toNat - 1) ∧
    (∀ dx dx', dx ≤ dx' → mapX m r.srcWidth.toNat dx ≤ mapX m r.srcWidth.toNat dx') ∧
    (∀ dy dy', dy ≤ dy' → mapY m r.srcHeight.toNat dy ≤ mapY m r.srcHeight.toNat dy') ∧
    (∀ dx dy c, dx ≤ 127 → dy ≤ 63 → c ≤ 2 →
      let a := srcAddr r.srcBase.toNat r.srcWidth.toNat (mapX m r.srcWidth.toNat dx) (mapY m r.srcHeight.toNat dy) c
      r.srcBase.toNat ≤ a ∧ a ≤ r.srcBase.toNat + r.srcLen.toNat - 1 ∧ a < 2 ^ 32)

/-- R109: the maps are the identity at 128 × 64, where the resized image is the source image, agree everywhere exactly for the divisors of 128 and 64, and give
dx div k where the width is 128 / k. -/
def Obligations.MapsAgreeForDivisors : Prop :=
  (∀ m : NnMap, (∀ dx, dx ≤ 127 → mapX m 128 dx = dx) ∧ (∀ dy, dy ≤ 63 → mapY m 64 dy = dy)) ∧
  (∀ (p : Params) (img : Image) (t : Byte) (x y : Nat), x ≤ 127 → y ≤ 63 →
    destBit p img 128 64 t x y = pixelBit p.avgMode t (img x y)) ∧
  (∀ w, 1 ≤ w → ((∀ dx, dx ≤ 127 → mapX .center w dx = mapX .floor w dx) ↔ w ∣ 128)) ∧
  (∀ h, 1 ≤ h → ((∀ dy, dy ≤ 63 → mapY .center h dy = mapY .floor h dy) ↔ h ∣ 64)) ∧
  (∀ (m : NnMap) (k dx : Nat), k ∣ 128 → dx ≤ 127 → mapX m (128 / k) dx = dx / k) ∧
  (∀ (m : NnMap) (k dy : Nat), k ∣ 64 → dy ≤ 63 → mapY m (64 / k) dy = dy / k) ∧
  (∀ w, 256 ≤ w → mapX .center w 0 ≠ mapX .floor w 0) ∧ (∀ h, 128 ≤ h → mapY .center h 0 ≠ mapY .floor h 0)

/-- R107: under CENTER the destination centre lies on a boundary between source pixels for every column exactly when
256 divides W, for every row exactly when 128 divides H; the map then takes the higher index. -/
def Obligations.CenterTiesTakeTheHigherIndex : Prop :=
  (∀ w, (∀ dx, dx ≤ 127 → 256 ∣ (2 * dx + 1) * w) ↔ 256 ∣ w) ∧
  (∀ h, (∀ dy, dy ≤ 63 → 128 ∣ (2 * dy + 1) * h) ↔ 128 ∣ h) ∧
  (∀ w dx u, (2 * dx + 1) * w = 256 * u → mapX .center w dx = u) ∧
  (∀ h dy u, (2 * dy + 1) * h = 128 * u → mapY .center h dy = u) ∧
  (∀ dx, mapX .center 256 dx = 2 * dx + 1)

/-! ### Steps 2 and 3 -/

/-- R115, R116: the ranges of the two averages, each value taken, and where they agree; under both modes the average
depends on the sum of the channels alone, so neither it nor any output depends on their order. -/
def Obligations.AverageRanges : Prop :=
  (∀ r g b, avg .wrap8 r g b ≤ 85 ∧ avg .wide r g b ≤ 255) ∧
  (∀ v, v ≤ 85 → ∃ r g b, avg .wrap8 r g b = v) ∧ (∀ v, v ≤ 255 → ∃ r g b, avg .wide r g b = v) ∧
  (∀ r g b : Byte, avg .wrap8 r g b = avg .wide r g b ↔ r.toNat + g.toNat + b.toNat ≤ 255) ∧
  (∀ r g b : Byte, 256 ≤ r.toNat + g.toNat + b.toNat →
    let q := (r.toNat + g.toNat + b.toNat) / 256
    (q = 1 ∨ q = 2) ∧ avg .wrap8 r g b = (r.toNat + g.toNat + b.toNat - 256 * q) / 3 ∧
      avg .wrap8 r g b < avg .wide r g b) ∧
  (∀ (m : AvgMode) (r g b r' g' b' : Byte),
    (r.toNat + g.toNat + b.toNat = r'.toNat + g'.toNat + b'.toNat → avg m r g b = avg m r' g' b') ∧
    avg m r g b = avg m g r b ∧ avg m r g b = avg m r b g) ∧
  ∀ (p : Params) (img img' : Image) (w h : Nat) (t : Byte) (k : Nat),
    (∀ x y, (img x y).1.toNat + (img x y).2.1.toNat + (img x y).2.2.toNat =
      (img' x y).1.toNat + (img' x y).2.1.toNat + (img' x y).2.2.toNat) →
    convertByte p img w h t k = convertByte p img' w h t k

/-- R118: with T = 255 every bit is 0 under both modes, and every byte of the result is 0x00; with WRAP8 so it is from
T = 85 on. -/
def Obligations.DeadThresholds : Prop :=
  ∀ (p : Params) (img : Image) (w h : Nat) (t : Byte), t = 255 ∨ (p.avgMode = .wrap8 ∧ 85 ≤ t.toNat) →
    (∀ c, pixelBit p.avgMode t c = false) ∧ ∀ k, convertByte p img w h t k = 0

/-- R119: for a fixed image and mode, a bit set under the higher threshold is set under the lower; so is every bit of
the result (R131). -/
def Obligations.HigherThresholdGivesFewerBits : Prop :=
  ∀ (p : Params) (img : Image) (w h : Nat) (t1 t2 : Byte), t2.toNat < t1.toNat →
    (∀ x y, destBit p img w h t1 x y = true → destBit p img w h t2 x y = true) ∧
    ∀ k j, k < 1024 → (convertByte p img w h t1 k).testBit j = true → (convertByte p img w h t2 k).testBit j = true

/-! ### Step 4 and the result -/

/-- R126: in a conversion whose engine is not stuck, a byte is emitted on the step for raster index i exactly when
i mod 8 = 7, and it becomes OUT[i div 8]: the accumulator with the pixel's bit, set or not, as its last. No other byte
of OUT changes, and on any other step none does. -/
def Obligations.EmitsEveryEighthPixel : Prop :=
  ∀ s t : State, s.Inv → s.status.busy = true → engineTurn s = .next t → t.stuck = false →
    (emitNow (s.eng.nb + 1) (s.eng.pix % 128) s.eng.pix = true ↔ s.eng.pix % 8 = 7) ∧
    (s.eng.pix % 8 = 7 → ∃ bit : Bool, outByte t (s.eng.pix / 8) = s.eng.acc ||| (if bit then 1#8 else 0#8)) ∧
    t.eng.oidx = (if s.eng.pix % 8 = 7 then s.eng.pix / 8 + 1 else s.eng.pix / 8) ∧
    (∀ k, k < 1024 → (k ≠ s.eng.pix / 8 ∨ s.eng.pix % 8 ≠ 7) → outByte t k = outByte s k)

/-- R127: destination pixel (x, y) is bit 7 - (x mod 8) of byte 16y + (x div 8) of the result, a byte; and R128: row y
lies in page y div 8. -/
def Obligations.ResultLayout : Prop :=
  ∀ (p : Params) (img : Image) (w h : Nat) (t : Byte),
    (∀ k, convertByte p img w h t k < 256) ∧
    (∀ x y, x < 128 → y < 64 →
      (convertByte p img w h t (16 * y + x / 8)).testBit (7 - x % 8) = destBit p img w h t x y ∧
      (16 * y + x / 8) / 128 = y / 8)

/-- R130: an image whose pixels all have the same channels gives 1024 bytes 0xFF where their average exceeds the
threshold, else 0x00, under both maps. -/
def Obligations.UniformImage : Prop :=
  ∀ (p : Params) (img : Image) (w h : Nat) (t : Byte) (c : Byte × Byte × Byte), 1 ≤ w → 1 ≤ h →
    (∀ x y, x < w → y < h → img x y = c) →
    (∀ x y, x < 128 → y < 64 → destBit p img w h t x y = decide (t.toNat < avg p.avgMode c.1 c.2.1 c.2.2)) ∧
    ∀ k, k < 1024 → convertByte p img w h t k = if t.toNat < avg p.avgMode c.1 c.2.1 c.2.2 then 0xFF else 0x00

/-! ### The engine -/

/-- R99: with BUSY = 1, the engine not stuck and the three source bytes of its pixel backed, the engine's turn takes one
step, and this is the whole next state (R110, R112, R117, R122 to R124), with any value for a byte that changed since
the accepted CONVERT (R59; the list of changed bytes is assumption 7, the tick assumption 4). Where one of the bytes is
not backed the engine gets stuck (R45, R139; its mark is assumption 11). With BUSY = 0, or stuck, it has no step, and
its turn passes (assumption 17). -/
def Obligations.EngineStepProcessesOnePixel : Prop :=
  ∀ s : State,
    let i := s.eng.pix
    let p := s.regs.srcBase.toNat + 3 * (mapY s.params.nnMap s.regs.srcHeight.toNat (i / 128) * s.regs.srcWidth.toNat +
      mapX s.params.nnMap s.regs.srcWidth.toNat (i % 128))
    (s.status.busy = false ∨ s.stuck = true → engineTurn s = .next s) ∧
    (s.status.busy = true → s.stuck = false → (∃ c, c ≤ 2 ∧ s.source.read (p + c) = none) →
      engineTurn s = .next { s with stuck := true }) ∧
    ∀ r g b : Byte, s.Inv → s.status.busy = true → s.stuck = false →
      s.source.read p = some r → s.source.read (p + 1) = some g → s.source.read (p + 2) = some b →
      ∃ r' g' b' : Byte,
        (p ∉ s.changed → r' = r) ∧ (p + 1 ∉ s.changed → g' = g) ∧ (p + 2 ∉ s.changed → b' = b) ∧
        let bit := decide (s.regs.threshold.toNat < avg s.params.avgMode r' g' b')
        let acc := s.eng.acc ||| (if bit then 1#8 <<< (7 - i % 8) else 0#8)
        engineTurn s = .next { s with
          tick := s.tick + 1
          out := if i % 8 = 7 then s.out.setIfInBounds (i / 8) acc else s.out
          eng :=
            { pix := if i = 8191 then 0 else i + 1
              acc := if i % 8 = 7 then 0 else acc
              nb := if i % 8 = 7 then 0 else i % 8 + 1
              oidx := if i % 8 = 7 then i / 8 + 1 else i / 8 }
          status := if i = 8191 then { s.status with busy := false, done := true } else s.status }

/-- R45, R139: the engine's turn always answers a next state. It gets stuck exactly where BUSY = 1 and the platform does
not back one of the three bytes of its pixel, and nothing but the mark of it changes then (assumption 11); so it never
gets stuck where the platform meets its duty (R106). -/
def Obligations.EngineStuckExactlyOnUnbackedBytes : Prop :=
  ∀ s : State,
    let p := s.regs.srcBase.toNat + 3 * (mapY s.params.nnMap s.regs.srcHeight.toNat (s.eng.pix / 128) *
      s.regs.srcWidth.toNat + mapX s.params.nnMap s.regs.srcWidth.toNat (s.eng.pix % 128))
    ∃ t, engineTurn s = .next t ∧
      (s.stuck = false →
        (t.stuck = true ↔ s.status.busy = true ∧ ∃ c, c ≤ 2 ∧ s.source.read (p + c) = none)) ∧
      (t.stuck = true → t = { s with stuck := true }) ∧
      (s.Inv → s.backed → s.stuck = false → t.stuck = false)

/-- R139: only an engine step that reads a byte the platform does not back makes the engine stuck. From then on BUSY = 1,
no error is recorded, and neither the position of the conversion nor its configuration moves, whatever any agent does,
the platform backing the byte again included, until reset; and a reset that comes is performed and leaves that state.
The field `stuck` is how the model holds it (assumption 11). -/
def Obligations.StuckEngineWaitsForReset : Prop :=
  (∀ s t : State, step s = .next t → s.stuck = false → t.stuck = true →
    s.nextTurn = .engine ∧ s.status.busy = true ∧
      ∃ c, c ≤ 2 ∧ s.source.read (s.pixelAddr s.eng.pix + c) = none) ∧
  (∀ s t : State, s.Inv → s.stuck = true → step s = .next t → s.nextTurn ≠ .reset →
    t.stuck = true ∧ t.status = { s.status with wign := t.status.wign } ∧ t.status.busy = true ∧
      t.status.err = false ∧ t.status.errCode = 0 ∧ t.eng = { s.eng with acc := t.eng.acc } ∧ t.regs = s.regs) ∧
  (∀ s : State, s.nextTurn = .reset → ∃ t, step s = .next t ∧ t.stuck = false ∧ t.status.busy = false) ∧
  ∀ (s : State) (c : Nat) (rest : List Turn), s.status.busy = true → c ≤ 2 →
    s.source.read (s.pixelAddr s.eng.pix + c) = none →
    ∃ u t, step { s with turns := .engine :: .reset :: rest } = .next u ∧ u.stuck = true ∧ u.status = s.status ∧
      step u = .next t ∧ t.stuck = false ∧ t.status = State.reset.status ∧ t.turns = rest

/-- R24: with BUSY = 0 the engine has no step: its turn changes nothing. With BUSY = 1 its turn leaves the parameters,
the configuration, source memory, the hosts, the plan, the data read, and ERR, ERR_CODE and WIGN as they are. -/
def Obligations.EngineTurnFrame : Prop :=
  ∀ s t : State, engineTurn s = .next t →
    (s.status.busy = false → t = s) ∧
    t.params = s.params ∧ t.regs = s.regs ∧ t.source = s.source ∧ t.changed = s.changed ∧ t.hosts = s.hosts ∧
    t.turns = s.turns ∧ t.readData = s.readData ∧ t.observed = s.observed ∧
    t.status.err = s.status.err ∧ t.status.errCode = s.status.errCode ∧ t.status.wign = s.status.wign

/-- R57, R99: the step for destination pixel 8191, where the engine does not get stuck, writes OUT[1023], ends the
conversion with DONE = 1 and ERR = 0, and leaves the hidden state at rest, all in one step. -/
def Obligations.LastEngineStepCompletes : Prop :=
  ∀ s t : State, s.Inv → s.status.busy = true → s.eng.pix = 8191 → engineTurn s = .next t → t.stuck = false →
    t.status = { s.status with busy := false, done := true } ∧ t.status.err = false ∧
    t.eng = { pix := 0, acc := 0, nb := 0, oidx := 1024 } ∧
    (∃ bit : Bool, outByte t 1023 = s.eng.acc ||| (if bit then 1#8 else 0#8)) ∧
    (∀ k, k < 1023 → outByte t k = outByte s k)

/-! ### Invariants and whole-machine rules -/

/-- Reset has the invariant. -/
def Obligations.ResetHasTheInvariant : Prop := State.reset.Inv ∧ State.reset.packedRight

/-- Every step, of any agent, keeps the invariant: the STATUS combinations the spec rules out never come, the hidden
state fits the position of the conversion, a stuck engine has BUSY = 1, source memory keeps its canonical form (R24 to
R28, R35, R83, R126, R139). -/
def Obligations.EveryStepKeepsTheInvariant : Prop :=
  ∀ s t : State, s.Inv → step s = .next t → t.Inv

/-- Every step of any agent keeps what is packed right: at every point of a conversion, in whatever order the agents
move, every pixel processed so far is packed as R127 gives, unless a source byte changed during it (R59). -/
def Obligations.EveryStepKeepsThePackedPixelsRight : Prop :=
  ∀ s t : State, s.Inv → s.packedRight → step s = .next t → t.packedRight

/-- R127, R131, R57: the step that completes a conversion in which no source byte changed leaves OUT as the whole
result of the image. -/
def Obligations.CompletionLeavesTheResult : Prop :=
  ∀ s t : State, s.Inv → s.packedRight → s.changed = [] → s.status.busy = true → step s = .next t →
    s.nextTurn = .engine → t.status.busy = false →
    t.status.done = true ∧ t.status.err = false ∧ ∀ k, k < 1024 → (outByte t k).toNat = s.convert k

/-- R100, R126, R131: an accepted CONVERT with a valid shape and a backed buffer, left alone, ends after exactly 8192
engine steps, which visit the pixels in order, with OUT = Convert(S, T), DONE = 1, ERR = 0 and everything else as it
was. Left alone is the run with no turn planned, in which the model takes the engine's turns (assumption 3, unsafe for
such a statement: it speaks of that one interleaving). -/
def Obligations.ConversionTakes8192Steps : Prop :=
  ∀ s : State, s.status.busy = false → s.turns = [] → validShape s.regs = true → s.backed →
    ∃ s1, exec .convert s = .next s1 ∧
      (∀ n, n < 8192 → ∃ u, Sys2Proof.core.run n s1 = .next u ∧ u.status.busy = true ∧ u.eng.pix = n) ∧
      ∃ t, Sys2Proof.core.run 8192 s1 = .next t ∧
        t.status = { busy := false, done := true, err := false, wign := false, errCode := 0 } ∧
        (∀ k, k < 1024 → (outByte t k).toNat = s.convert k) ∧
        t.eng = { pix := 0, acc := 0, nb := 0, oidx := 1024 } ∧
        t.params = s.params ∧ t.regs = s.regs ∧ t.source = s.source ∧ t.hosts = s.hosts ∧ t.observed = s.observed

/-- R40, R131: two conversions left alone, with the same parameters, configuration and source bytes, leave
byte-identical OUT, whatever else the two machines hold. Left alone is the run with no turn planned (assumption 3, unsafe
for such a statement); every interleaving is the next statement's. -/
def Obligations.EqualInputsGiveEqualOutputs : Prop :=
  ∀ s u s1 u1 s2 u2 : State, s.status.busy = false → u.status.busy = false → s.turns = [] → u.turns = [] →
    validShape s.regs = true → s.backed → s.params = u.params → s.regs = u.regs →
    (∀ a, inBuffer s.regs a = true → s.source.read a = u.source.read a) →
    exec .convert s = .next s1 → exec .convert u = .next u1 →
    Sys2Proof.core.run 8192 s1 = .next s2 → Sys2Proof.core.run 8192 u1 = .next u2 → s2.out = u2.out

/-- R40, R131: the steps that complete two conversions with the same parameters, configuration and source bytes, in each
of which no source byte changed, leave byte-identical OUT. Whatever the agents did before in each, in whatever order:
every step keeps the premises (`EveryStepKeepsTheInvariant`, `EveryStepKeepsThePackedPixelsRight`). -/
def Obligations.CompletionsWithEqualInputsLeaveEqualOut : Prop :=
  ∀ s u t v : State, s.Inv → u.Inv → s.packedRight → u.packedRight → s.changed = [] → u.changed = [] →
    s.status.busy = true → u.status.busy = true → s.nextTurn = .engine → u.nextTurn = .engine →
    step s = .next t → step u = .next v → t.status.busy = false → v.status.busy = false →
    s.params = u.params → s.regs = u.regs →
    (∀ a, inBuffer s.regs a = true → s.source.read a = u.source.read a) → t.out = v.out

/-- R24: an accepted CONVERT with a valid shape sets BUSY; the engine step for pixel 8191 and reset clear it; no other
step changes it. With BUSY = 1 the engine's turn, where the engine is not stuck (R139), moves the conversion on; with
BUSY = 0 it does nothing. -/
def Obligations.BusyChangesOnlyAsNamed : Prop :=
  (∀ s : State, s.status.busy = false → validShape s.regs = true →
    ∃ t, exec .convert s = .next t ∧ t.status.busy = true) ∧
  (∀ s t : State, s.status.busy = true → engineTurn s = .next t → t.stuck = false →
    t.eng.pix ≠ s.eng.pix ∧ (t.status.busy = false ↔ s.eng.pix = 8191)) ∧
  (∀ s : State, s.status.busy = false → engineTurn s = .next s) ∧
  (∀ s : State, s.nextTurn = .reset → ∃ t, step s = .next t ∧ t.status.busy = false) ∧
  ∀ s t : State, step s = .next t →
    (s.status.busy = false → t.status.busy = true →
      ∃ k x dst, s.nextTurn = .host k ∧ s.fetch k = some (.bus x dst) ∧
        decodeBus x = .ok (.wrCmd 0x00000001) ∧ validShape s.regs = true) ∧
    (s.status.busy = true → t.status.busy = false →
      s.nextTurn = .reset ∨ (s.nextTurn = .engine ∧ s.eng.pix = 8191))

/-- R27: a write to CMD or a configuration register while BUSY = 1 sets WIGN and has no other effect; the next accepted
CONVERT and reset clear it; no other step changes it. -/
def Obligations.WignChangesOnlyAsNamed : Prop :=
  (∀ (s : State) (i : Instr), s.status.busy = true → i.isGated = true →
    exec i s = .next { s with status := { s.status with wign := true } }) ∧
  (∀ s : State, s.status.busy = false → ∃ t, exec .convert s = .next t ∧ t.status.wign = false) ∧
  (∀ s : State, s.nextTurn = .reset → ∃ t, step s = .next t ∧ t.status.wign = false) ∧
  ∀ s t : State, step s = .next t →
    (s.status.wign = false → t.status.wign = true →
      s.status.busy = true ∧ ∃ k x dst i, s.nextTurn = .host k ∧ s.fetch k = some (.bus x dst) ∧
        decodeBus x = .ok i ∧ i.isGated = true) ∧
    (s.status.wign = true → t.status.wign = false →
      s.nextTurn = .reset ∨ (s.status.busy = false ∧ ∃ k x dst, s.nextTurn = .host k ∧
        s.fetch k = some (.bus x dst) ∧ decodeBus x = .ok (.wrCmd 0x00000001)))

/-- R25, R26, R28: what an accepted CONVERT, a reserved command, NOP, the last engine step and reset do to DONE, ERR and
ERR_CODE; that no other step changes them; and that ERR_CODE stays 0 while ERR = 0. -/
def Obligations.CompletionFlagsChangeOnlyAsNamed : Prop :=
  (∀ s : State, s.status.busy = false → ∃ t, exec .convert s = .next t ∧
    if validShape s.regs = true then t.status.done = false ∧ t.status.err = false ∧ t.status.errCode = 0
    else t.status.done = true ∧ t.status.err = true ∧ t.status.errCode = 1) ∧
  (∀ (s : State) (w : Word), s.status.busy = false → ∃ t, exec (.cmdReserved w) s = .next t ∧
    t.status.done = true ∧ t.status.err = true ∧ t.status.errCode = 2) ∧
  (∀ s : State, ∃ t, exec .nop s = .next t ∧
    t.status.done = s.status.done ∧ t.status.err = s.status.err ∧ t.status.errCode = s.status.errCode) ∧
  (∀ s t : State, s.status.busy = true → s.eng.pix = 8191 → engineTurn s = .next t → t.stuck = false →
    t.status.done = true) ∧
  (∀ s : State, s.nextTurn = .reset → ∃ t, step s = .next t ∧
    t.status.done = false ∧ t.status.err = false ∧ t.status.errCode = 0) ∧
  (∀ s t : State, s.Inv → step s = .next t → t.status.err = false → t.status.errCode = 0) ∧
  ∀ s t : State, step s = .next t →
    (t.status.done ≠ s.status.done ∨ t.status.err ≠ s.status.err ∨ t.status.errCode ≠ s.status.errCode) →
    s.nextTurn = .reset ∨
    (s.nextTurn = .engine ∧ s.status.busy = true ∧ s.eng.pix = 8191 ∧ t.status.done = true ∧
      t.status.err = s.status.err ∧ t.status.errCode = s.status.errCode) ∨
    (s.status.busy = false ∧ ∃ k x dst w, s.nextTurn = .host k ∧ s.fetch k = some (.bus x dst) ∧
      decodeBus x = .ok (.wrCmd w) ∧ w ≠ 0x00000000)

/-- R61: while a conversion runs, no step but reset changes its configuration, and no step ever changes the
parameters (R10). -/
def Obligations.ConfigurationFixedWhileBusy : Prop :=
  ∀ s t : State, step s = .next t →
    t.params = s.params ∧ (s.status.busy = true → s.nextTurn ≠ .reset → t.regs = s.regs)

/-- R34, R96, R16: no host operation changes OUT or the source memory; OUT changes only while a conversion runs, and at
reset. -/
def Obligations.OutBelongsToTheEngine : Prop :=
  (∀ (i : Instr) (s t : State), exec i s = .next t → t.out = s.out ∧ t.source = s.source) ∧
  ∀ s t : State, step s = .next t → s.status.busy = false → s.nextTurn ≠ .reset → t.out = s.out

/-- R44, R15, R45: source memory changes in the platform's turns alone; after the platform writes a byte, or ceases to
back one, a read returns it, or nothing, and every other address reads as before. -/
def Obligations.SourceMemoryIsThePlatforms : Prop :=
  (∀ s t : State, step s = .next t → t.source ≠ s.source →
    (∃ a b, s.nextTurn = .platformWrite a b) ∨ ∃ a, s.nextTurn = .platformUnback a) ∧
  ∀ (s : State) (a : BitVec 32) (b : Byte) (x : Nat), Memory.wf s.source →
    (s.nextTurn = .platformWrite a b →
      ∃ t, step s = .next t ∧ t.source.read x = if x = a.toNat then some b else s.source.read x) ∧
    (s.nextTurn = .platformUnback a →
      ∃ t, step s = .next t ∧ t.source.read x = if x = a.toNat then none else s.source.read x)

/-- R59: a change of a source byte during a conversion, by a write of the platform (v = some b) or by its ceasing to back
the byte (v = none; that this is a change too is assumption 7), touches, of all that is packed, only the bits that
depend on that byte; the byte is from then on one whose reads return any value; beside source memory, OUT, the
accumulator and that list nothing changes. A change outside the buffer, or with BUSY = 0, or one that leaves the byte as
it is, touches source memory alone. -/
def Obligations.SourceChangeTouchesOnlyItsOwnBits : Prop :=
  ∀ (s : State) (a : BitVec 32) (v : Option Byte), s.Inv →
    let t := match v with
      | some b => platformWrite a b s
      | none => platformUnback a s
    let m := match v with
      | some b => s.source.write a b
      | none => s.source.unback a
    (s.status.busy = true → inBuffer s.regs a.toNat = true → s.source.read a.toNat ≠ v →
      (∀ i, i < s.eng.pix → a.toNat ≠ s.pixelAddr i → a.toNat ≠ s.pixelAddr i + 1 → a.toNat ≠ s.pixelAddr i + 2 →
        t.packedBit i = s.packedBit i) ∧
      (∀ x, x ∈ t.changed ↔ x = a.toNat ∨ x ∈ s.changed) ∧
      (∀ k, k < 1024 → s.eng.oidx ≤ k → outByte t k = outByte s k) ∧
      t = { s with source := m, out := t.out, eng := { s.eng with acc := t.eng.acc }, changed := t.changed }) ∧
    (s.status.busy = false ∨ inBuffer s.regs a.toNat = false ∨ s.source.read a.toNat = v → t = { s with source := m })

/-- R39, R153: every register and the hidden state after reset, the engine not stuck, CMD and STATUS as a host reads them, every OUT byte a
free value (R152); nothing happens on its own then, and a CONVERT fails, after which STATUS reads 0x00000106 and OUT is
as it was. -/
def Obligations.ResetValues : Prop :=
  State.reset.status = { busy := false, done := false, err := false, wign := false, errCode := 0 } ∧
  State.reset.regs = { srcBase := 0, srcLen := 0, srcWidth := 0, srcHeight := 0, threshold := 0 } ∧
  State.reset.eng = { pix := 0, acc := 0, nb := 0, oidx := 0 } ∧ State.reset.stuck = false ∧
  (∀ k, k < 1024 → outByte State.reset k = Config.outAtReset 0 k) ∧
  exec .rdStatus State.reset = .next { State.reset with readData := 0x00000000 } ∧
  exec .rdCmd State.reset = .next { State.reset with readData := 0x00000000 } ∧
  step State.reset = .next State.reset ∧ engineTurn State.reset = .next State.reset ∧
  ∃ t u, exec .convert State.reset = .next t ∧ exec .rdStatus t = .next u ∧ u.readData = 0x00000106 ∧
    t.out = State.reset.out

/-- R151: reset, planned at any point, puts the engine into its reset values, every OUT byte a fresh free value (R152;
the draw is assumption 6), and aborts a conversion, a stuck one too (R139), after which the engine takes no further
step. That the platform's memory, the hosts and the plan stay (assumption 9), the parameters (assumption 10) and the
data words read so far (assumption 5), is the model's choice. -/
def Obligations.ResetAbortsAndClears : Prop :=
  ∀ (s : State) (rest : List Turn), ∃ t, step { s with turns := .reset :: rest } = .next t ∧
    t.status = State.reset.status ∧ t.regs = State.reset.regs ∧ t.eng = State.reset.eng ∧ t.stuck = false ∧
    t.changed = [] ∧ (∀ k, k < 1024 → outByte t k = Config.outAtReset s.tick k) ∧ engineTurn t = .next t ∧
    t.source = s.source ∧ t.hosts = s.hosts ∧ t.turns = rest ∧ t.params = s.params ∧ t.readData = s.readData ∧
    t.observed = s.observed

/-- R141: a host's write to CMD, of any command word, or to a configuration register, that meets the last engine step.
Before it, the write is ignored and WIGN set. After it, the write is performed: it is exec of its instruction in the
state the engine step left, with BUSY = 0, and a configuration register takes its operand. In both orders the conversion
completes. What a host's turn adds is `retire`. -/
def Obligations.WriteRacingTheLastStep : Prop :=
  ∀ (s : State) (k : Nat) (x : Txn) (dst : Option Nat) (i : Instr) (rest : List Turn), s.Inv → s.backed →
    s.status.busy = true → s.stuck = false → s.eng.pix = 8191 → s.fetch k = some (.bus x dst) →
    decodeBus x = .ok i → i.isGated = true →
    (∃ t, Sys2Proof.core.run 2 { s with turns := .host k :: .engine :: rest } = .next t ∧
      t.status = { s.status with busy := false, done := true, wign := true } ∧ t.regs = s.regs) ∧
    (∃ u v, step { s with turns := .engine :: .host k :: rest } = .next u ∧
      u.status = { s.status with busy := false, done := true } ∧ u.regs = s.regs ∧
      exec i { u with turns := rest } = .next v ∧
      Sys2Proof.core.run 2 { s with turns := .engine :: .host k :: rest } = .next (v.retire k i dst) ∧
      ((∀ d, i ≠ .wrCmd d) → v.status = u.status) ∧
      (∀ d, (i = .wrSrcBase d → v.regs = { s.regs with srcBase := d }) ∧
        (i = .wrSrcLen d → v.regs = { s.regs with srcLen := d }) ∧
        (i = .wrSrcWidth d → v.regs = { s.regs with srcWidth := d }) ∧
        (i = .wrSrcHeight d → v.regs = { s.regs with srcHeight := d }) ∧
        (i = .wrThreshold d → v.regs = { s.regs with threshold := d.setWidth 8 })))

/-! ### Host programs -/

/-- R76: the pseudo-instructions, as the statements they expand to and the transactions those are (R75). -/
def Obligations.PseudoInstructionsExpand : Prop :=
  assembleProgram asmNop = some [.bus ⟨0x1000, 4, 0x00000000⟩ none] ∧
  assembleProgram asmConvert = some [.bus ⟨0x1000, 4, 0x00000001⟩ none] ∧
  (∀ r l, assembleProgram (asmWaitDone r l) = some [.bus ⟨0x0004, 4, 0⟩ (some r), .bz r 0x2 0]) ∧
  (∀ b n w h t, assembleProgram (asmConfig b n w h t) =
    some [.bus ⟨0x1008, 4, b⟩ none, .bus ⟨0x100C, 4, n⟩ none, .bus ⟨0x1010, 4, w⟩ none, .bus ⟨0x1014, 4, h⟩ none,
      .bus ⟨0x1018, 4, t⟩ none]) ∧
  (∀ (k : BitVec 10) r, ∃ x, assembleProgram (asmRdout k r) = some [.bus x (some r)] ∧
    decodeBus x = .ok (.rdOut k .b1))
end

