-- ==== Sys2Proof/Laws/State.lean ====
section
/-! SUPPORT. One lemma per field and update of State: what each shared operation leaves in each field. -/

namespace Sys2Proof.Machine

variable (s : State)

@[simp] theorem State.raise_params (e : ErrorKind) : (s.raise e).params = s.params := rfl
@[simp] theorem State.raise_status (e : ErrorKind) : (s.raise e).status = s.status.raised e := rfl
@[simp] theorem State.raise_regs (e : ErrorKind) : (s.raise e).regs = s.regs := rfl
@[simp] theorem State.raise_out (e : ErrorKind) : (s.raise e).out = s.out := rfl
@[simp] theorem State.raise_eng (e : ErrorKind) : (s.raise e).eng = s.eng := rfl
@[simp] theorem State.raise_stuck (e : ErrorKind) : (s.raise e).stuck = s.stuck := rfl
@[simp] theorem State.raise_source (e : ErrorKind) : (s.raise e).source = s.source := rfl
@[simp] theorem State.raise_changed (e : ErrorKind) : (s.raise e).changed = s.changed := rfl
@[simp] theorem State.raise_readData (e : ErrorKind) : (s.raise e).readData = s.readData := rfl
@[simp] theorem State.raise_observed (e : ErrorKind) : (s.raise e).observed = s.observed := rfl
@[simp] theorem State.raise_hosts (e : ErrorKind) : (s.raise e).hosts = s.hosts := rfl
@[simp] theorem State.raise_turns (e : ErrorKind) : (s.raise e).turns = s.turns := rfl
@[simp] theorem State.raise_tick (e : ErrorKind) : (s.raise e).tick = s.tick := rfl

@[simp] theorem State.ignoreWrite_params : (s.ignoreWrite).params = s.params := rfl
@[simp] theorem State.ignoreWrite_status : (s.ignoreWrite).status = s.status.writeIgnored := rfl
@[simp] theorem State.ignoreWrite_regs : (s.ignoreWrite).regs = s.regs := rfl
@[simp] theorem State.ignoreWrite_out : (s.ignoreWrite).out = s.out := rfl
@[simp] theorem State.ignoreWrite_eng : (s.ignoreWrite).eng = s.eng := rfl
@[simp] theorem State.ignoreWrite_stuck : (s.ignoreWrite).stuck = s.stuck := rfl
@[simp] theorem State.ignoreWrite_source : (s.ignoreWrite).source = s.source := rfl
@[simp] theorem State.ignoreWrite_changed : (s.ignoreWrite).changed = s.changed := rfl
@[simp] theorem State.ignoreWrite_readData : (s.ignoreWrite).readData = s.readData := rfl
@[simp] theorem State.ignoreWrite_observed : (s.ignoreWrite).observed = s.observed := rfl
@[simp] theorem State.ignoreWrite_hosts : (s.ignoreWrite).hosts = s.hosts := rfl
@[simp] theorem State.ignoreWrite_turns : (s.ignoreWrite).turns = s.turns := rfl
@[simp] theorem State.ignoreWrite_tick : (s.ignoreWrite).tick = s.tick := rfl

@[simp] theorem State.returnData_params (w : Word) : (s.returnData w).params = s.params := rfl
@[simp] theorem State.returnData_status (w : Word) : (s.returnData w).status = s.status := rfl
@[simp] theorem State.returnData_regs (w : Word) : (s.returnData w).regs = s.regs := rfl
@[simp] theorem State.returnData_out (w : Word) : (s.returnData w).out = s.out := rfl
@[simp] theorem State.returnData_eng (w : Word) : (s.returnData w).eng = s.eng := rfl
@[simp] theorem State.returnData_stuck (w : Word) : (s.returnData w).stuck = s.stuck := rfl
@[simp] theorem State.returnData_source (w : Word) : (s.returnData w).source = s.source := rfl
@[simp] theorem State.returnData_changed (w : Word) : (s.returnData w).changed = s.changed := rfl
@[simp] theorem State.returnData_readData (w : Word) : (s.returnData w).readData = w := rfl
@[simp] theorem State.returnData_observed (w : Word) : (s.returnData w).observed = s.observed := rfl
@[simp] theorem State.returnData_hosts (w : Word) : (s.returnData w).hosts = s.hosts := rfl
@[simp] theorem State.returnData_turns (w : Word) : (s.returnData w).turns = s.turns := rfl
@[simp] theorem State.returnData_tick (w : Word) : (s.returnData w).tick = s.tick := rfl

@[simp] theorem State.startConversion_params : (s.startConversion).params = s.params := rfl
@[simp] theorem State.startConversion_status : (s.startConversion).status = s.status.started := rfl
@[simp] theorem State.startConversion_regs : (s.startConversion).regs = s.regs := rfl
@[simp] theorem State.startConversion_out : (s.startConversion).out = s.out := rfl
@[simp] theorem State.startConversion_eng : (s.startConversion).eng = Engine.start := rfl
@[simp] theorem State.startConversion_stuck : (s.startConversion).stuck = false := rfl
@[simp] theorem State.startConversion_source : (s.startConversion).source = s.source := rfl
@[simp] theorem State.startConversion_changed : (s.startConversion).changed = [] := rfl
@[simp] theorem State.startConversion_readData : (s.startConversion).readData = s.readData := rfl
@[simp] theorem State.startConversion_observed : (s.startConversion).observed = s.observed := rfl
@[simp] theorem State.startConversion_hosts : (s.startConversion).hosts = s.hosts := rfl
@[simp] theorem State.startConversion_turns : (s.startConversion).turns = s.turns := rfl
@[simp] theorem State.startConversion_tick : (s.startConversion).tick = s.tick := rfl

@[simp] theorem State.setSrcBase_params (w : Word) : (s.setSrcBase w).params = s.params := rfl
@[simp] theorem State.setSrcBase_status (w : Word) : (s.setSrcBase w).status = s.status := rfl
@[simp] theorem State.setSrcBase_regs (w : Word) : (s.setSrcBase w).regs = { s.regs with srcBase := w } := rfl
@[simp] theorem State.setSrcBase_out (w : Word) : (s.setSrcBase w).out = s.out := rfl
@[simp] theorem State.setSrcBase_eng (w : Word) : (s.setSrcBase w).eng = s.eng := rfl
@[simp] theorem State.setSrcBase_stuck (w : Word) : (s.setSrcBase w).stuck = s.stuck := rfl
@[simp] theorem State.setSrcBase_source (w : Word) : (s.setSrcBase w).source = s.source := rfl
@[simp] theorem State.setSrcBase_changed (w : Word) : (s.setSrcBase w).changed = s.changed := rfl
@[simp] theorem State.setSrcBase_readData (w : Word) : (s.setSrcBase w).readData = s.readData := rfl
@[simp] theorem State.setSrcBase_observed (w : Word) : (s.setSrcBase w).observed = s.observed := rfl
@[simp] theorem State.setSrcBase_hosts (w : Word) : (s.setSrcBase w).hosts = s.hosts := rfl
@[simp] theorem State.setSrcBase_turns (w : Word) : (s.setSrcBase w).turns = s.turns := rfl
@[simp] theorem State.setSrcBase_tick (w : Word) : (s.setSrcBase w).tick = s.tick := rfl

@[simp] theorem State.setSrcLen_params (w : Word) : (s.setSrcLen w).params = s.params := rfl
@[simp] theorem State.setSrcLen_status (w : Word) : (s.setSrcLen w).status = s.status := rfl
@[simp] theorem State.setSrcLen_regs (w : Word) : (s.setSrcLen w).regs = { s.regs with srcLen := w } := rfl
@[simp] theorem State.setSrcLen_out (w : Word) : (s.setSrcLen w).out = s.out := rfl
@[simp] theorem State.setSrcLen_eng (w : Word) : (s.setSrcLen w).eng = s.eng := rfl
@[simp] theorem State.setSrcLen_stuck (w : Word) : (s.setSrcLen w).stuck = s.stuck := rfl
@[simp] theorem State.setSrcLen_source (w : Word) : (s.setSrcLen w).source = s.source := rfl
@[simp] theorem State.setSrcLen_changed (w : Word) : (s.setSrcLen w).changed = s.changed := rfl
@[simp] theorem State.setSrcLen_readData (w : Word) : (s.setSrcLen w).readData = s.readData := rfl
@[simp] theorem State.setSrcLen_observed (w : Word) : (s.setSrcLen w).observed = s.observed := rfl
@[simp] theorem State.setSrcLen_hosts (w : Word) : (s.setSrcLen w).hosts = s.hosts := rfl
@[simp] theorem State.setSrcLen_turns (w : Word) : (s.setSrcLen w).turns = s.turns := rfl
@[simp] theorem State.setSrcLen_tick (w : Word) : (s.setSrcLen w).tick = s.tick := rfl

@[simp] theorem State.setSrcWidth_params (w : Word) : (s.setSrcWidth w).params = s.params := rfl
@[simp] theorem State.setSrcWidth_status (w : Word) : (s.setSrcWidth w).status = s.status := rfl
@[simp] theorem State.setSrcWidth_regs (w : Word) : (s.setSrcWidth w).regs = { s.regs with srcWidth := w } := rfl
@[simp] theorem State.setSrcWidth_out (w : Word) : (s.setSrcWidth w).out = s.out := rfl
@[simp] theorem State.setSrcWidth_eng (w : Word) : (s.setSrcWidth w).eng = s.eng := rfl
@[simp] theorem State.setSrcWidth_stuck (w : Word) : (s.setSrcWidth w).stuck = s.stuck := rfl
@[simp] theorem State.setSrcWidth_source (w : Word) : (s.setSrcWidth w).source = s.source := rfl
@[simp] theorem State.setSrcWidth_changed (w : Word) : (s.setSrcWidth w).changed = s.changed := rfl
@[simp] theorem State.setSrcWidth_readData (w : Word) : (s.setSrcWidth w).readData = s.readData := rfl
@[simp] theorem State.setSrcWidth_observed (w : Word) : (s.setSrcWidth w).observed = s.observed := rfl
@[simp] theorem State.setSrcWidth_hosts (w : Word) : (s.setSrcWidth w).hosts = s.hosts := rfl
@[simp] theorem State.setSrcWidth_turns (w : Word) : (s.setSrcWidth w).turns = s.turns := rfl
@[simp] theorem State.setSrcWidth_tick (w : Word) : (s.setSrcWidth w).tick = s.tick := rfl

@[simp] theorem State.setSrcHeight_params (w : Word) : (s.setSrcHeight w).params = s.params := rfl
@[simp] theorem State.setSrcHeight_status (w : Word) : (s.setSrcHeight w).status = s.status := rfl
@[simp] theorem State.setSrcHeight_regs (w : Word) : (s.setSrcHeight w).regs = { s.regs with srcHeight := w } := rfl
@[simp] theorem State.setSrcHeight_out (w : Word) : (s.setSrcHeight w).out = s.out := rfl
@[simp] theorem State.setSrcHeight_eng (w : Word) : (s.setSrcHeight w).eng = s.eng := rfl
@[simp] theorem State.setSrcHeight_stuck (w : Word) : (s.setSrcHeight w).stuck = s.stuck := rfl
@[simp] theorem State.setSrcHeight_source (w : Word) : (s.setSrcHeight w).source = s.source := rfl
@[simp] theorem State.setSrcHeight_changed (w : Word) : (s.setSrcHeight w).changed = s.changed := rfl
@[simp] theorem State.setSrcHeight_readData (w : Word) : (s.setSrcHeight w).readData = s.readData := rfl
@[simp] theorem State.setSrcHeight_observed (w : Word) : (s.setSrcHeight w).observed = s.observed := rfl
@[simp] theorem State.setSrcHeight_hosts (w : Word) : (s.setSrcHeight w).hosts = s.hosts := rfl
@[simp] theorem State.setSrcHeight_turns (w : Word) : (s.setSrcHeight w).turns = s.turns := rfl
@[simp] theorem State.setSrcHeight_tick (w : Word) : (s.setSrcHeight w).tick = s.tick := rfl

@[simp] theorem State.setThreshold_params (t : Byte) : (s.setThreshold t).params = s.params := rfl
@[simp] theorem State.setThreshold_status (t : Byte) : (s.setThreshold t).status = s.status := rfl
@[simp] theorem State.setThreshold_regs (t : Byte) : (s.setThreshold t).regs = { s.regs with threshold := t } := rfl
@[simp] theorem State.setThreshold_out (t : Byte) : (s.setThreshold t).out = s.out := rfl
@[simp] theorem State.setThreshold_eng (t : Byte) : (s.setThreshold t).eng = s.eng := rfl
@[simp] theorem State.setThreshold_stuck (t : Byte) : (s.setThreshold t).stuck = s.stuck := rfl
@[simp] theorem State.setThreshold_source (t : Byte) : (s.setThreshold t).source = s.source := rfl
@[simp] theorem State.setThreshold_changed (t : Byte) : (s.setThreshold t).changed = s.changed := rfl
@[simp] theorem State.setThreshold_readData (t : Byte) : (s.setThreshold t).readData = s.readData := rfl
@[simp] theorem State.setThreshold_observed (t : Byte) : (s.setThreshold t).observed = s.observed := rfl
@[simp] theorem State.setThreshold_hosts (t : Byte) : (s.setThreshold t).hosts = s.hosts := rfl
@[simp] theorem State.setThreshold_turns (t : Byte) : (s.setThreshold t).turns = s.turns := rfl
@[simp] theorem State.setThreshold_tick (t : Byte) : (s.setThreshold t).tick = s.tick := rfl

@[simp] theorem State.resetEngine_params : (s.resetEngine).params = s.params := rfl
@[simp] theorem State.resetEngine_status : (s.resetEngine).status = Status.atReset := rfl
@[simp] theorem State.resetEngine_regs : (s.resetEngine).regs = Regs.atReset := rfl
@[simp] theorem State.resetEngine_out : (s.resetEngine).out = outAfterReset s.tick := rfl
@[simp] theorem State.resetEngine_eng : (s.resetEngine).eng = Engine.start := rfl
@[simp] theorem State.resetEngine_stuck : (s.resetEngine).stuck = false := rfl
@[simp] theorem State.resetEngine_source : (s.resetEngine).source = s.source := rfl
@[simp] theorem State.resetEngine_changed : (s.resetEngine).changed = [] := rfl
@[simp] theorem State.resetEngine_readData : (s.resetEngine).readData = s.readData := rfl
@[simp] theorem State.resetEngine_observed : (s.resetEngine).observed = s.observed := rfl
@[simp] theorem State.resetEngine_hosts : (s.resetEngine).hosts = s.hosts := rfl
@[simp] theorem State.resetEngine_turns : (s.resetEngine).turns = s.turns := rfl
@[simp] theorem State.resetEngine_tick : (s.resetEngine).tick = s.tick + 1 := rfl

@[simp] theorem State.emit_params (x : Byte) : (s.emit x).params = s.params := rfl
@[simp] theorem State.emit_status (x : Byte) : (s.emit x).status = s.status := rfl
@[simp] theorem State.emit_regs (x : Byte) : (s.emit x).regs = s.regs := rfl
@[simp] theorem State.emit_out (x : Byte) : (s.emit x).out = s.out.setIfInBounds s.eng.oidx x := rfl
@[simp] theorem State.emit_eng (x : Byte) : (s.emit x).eng = { s.eng with oidx := s.eng.oidx + 1, acc := 0, nb := 0 } := rfl
@[simp] theorem State.emit_stuck (x : Byte) : (s.emit x).stuck = s.stuck := rfl
@[simp] theorem State.emit_source (x : Byte) : (s.emit x).source = s.source := rfl
@[simp] theorem State.emit_changed (x : Byte) : (s.emit x).changed = s.changed := rfl
@[simp] theorem State.emit_readData (x : Byte) : (s.emit x).readData = s.readData := rfl
@[simp] theorem State.emit_observed (x : Byte) : (s.emit x).observed = s.observed := rfl
@[simp] theorem State.emit_hosts (x : Byte) : (s.emit x).hosts = s.hosts := rfl
@[simp] theorem State.emit_turns (x : Byte) : (s.emit x).turns = s.turns := rfl
@[simp] theorem State.emit_tick (x : Byte) : (s.emit x).tick = s.tick := rfl

@[simp] theorem State.accumulate_params (x : Byte) (n : Nat) : (s.accumulate x n).params = s.params := rfl
@[simp] theorem State.accumulate_status (x : Byte) (n : Nat) : (s.accumulate x n).status = s.status := rfl
@[simp] theorem State.accumulate_regs (x : Byte) (n : Nat) : (s.accumulate x n).regs = s.regs := rfl
@[simp] theorem State.accumulate_out (x : Byte) (n : Nat) : (s.accumulate x n).out = s.out := rfl
@[simp] theorem State.accumulate_eng (x : Byte) (n : Nat) : (s.accumulate x n).eng = { s.eng with acc := x, nb := n } := rfl
@[simp] theorem State.accumulate_stuck (x : Byte) (n : Nat) : (s.accumulate x n).stuck = s.stuck := rfl
@[simp] theorem State.accumulate_source (x : Byte) (n : Nat) : (s.accumulate x n).source = s.source := rfl
@[simp] theorem State.accumulate_changed (x : Byte) (n : Nat) : (s.accumulate x n).changed = s.changed := rfl
@[simp] theorem State.accumulate_readData (x : Byte) (n : Nat) : (s.accumulate x n).readData = s.readData := rfl
@[simp] theorem State.accumulate_observed (x : Byte) (n : Nat) : (s.accumulate x n).observed = s.observed := rfl
@[simp] theorem State.accumulate_hosts (x : Byte) (n : Nat) : (s.accumulate x n).hosts = s.hosts := rfl
@[simp] theorem State.accumulate_turns (x : Byte) (n : Nat) : (s.accumulate x n).turns = s.turns := rfl
@[simp] theorem State.accumulate_tick (x : Byte) (n : Nat) : (s.accumulate x n).tick = s.tick := rfl

@[simp] theorem State.nextDraw_params : (s.nextDraw).params = s.params := rfl
@[simp] theorem State.nextDraw_status : (s.nextDraw).status = s.status := rfl
@[simp] theorem State.nextDraw_regs : (s.nextDraw).regs = s.regs := rfl
@[simp] theorem State.nextDraw_out : (s.nextDraw).out = s.out := rfl
@[simp] theorem State.nextDraw_eng : (s.nextDraw).eng = s.eng := rfl
@[simp] theorem State.nextDraw_stuck : (s.nextDraw).stuck = s.stuck := rfl
@[simp] theorem State.nextDraw_source : (s.nextDraw).source = s.source := rfl
@[simp] theorem State.nextDraw_changed : (s.nextDraw).changed = s.changed := rfl
@[simp] theorem State.nextDraw_readData : (s.nextDraw).readData = s.readData := rfl
@[simp] theorem State.nextDraw_observed : (s.nextDraw).observed = s.observed := rfl
@[simp] theorem State.nextDraw_hosts : (s.nextDraw).hosts = s.hosts := rfl
@[simp] theorem State.nextDraw_turns : (s.nextDraw).turns = s.turns := rfl
@[simp] theorem State.nextDraw_tick : (s.nextDraw).tick = s.tick + 1 := rfl

@[simp] theorem State.getStuck_params : (s.getStuck).params = s.params := rfl
@[simp] theorem State.getStuck_status : (s.getStuck).status = s.status := rfl
@[simp] theorem State.getStuck_regs : (s.getStuck).regs = s.regs := rfl
@[simp] theorem State.getStuck_out : (s.getStuck).out = s.out := rfl
@[simp] theorem State.getStuck_eng : (s.getStuck).eng = s.eng := rfl
@[simp] theorem State.getStuck_stuck : (s.getStuck).stuck = true := rfl
@[simp] theorem State.getStuck_source : (s.getStuck).source = s.source := rfl
@[simp] theorem State.getStuck_changed : (s.getStuck).changed = s.changed := rfl
@[simp] theorem State.getStuck_readData : (s.getStuck).readData = s.readData := rfl
@[simp] theorem State.getStuck_observed : (s.getStuck).observed = s.observed := rfl
@[simp] theorem State.getStuck_hosts : (s.getStuck).hosts = s.hosts := rfl
@[simp] theorem State.getStuck_turns : (s.getStuck).turns = s.turns := rfl
@[simp] theorem State.getStuck_tick : (s.getStuck).tick = s.tick := rfl

@[simp] theorem State.dropTurn_params : (s.dropTurn).params = s.params := rfl
@[simp] theorem State.dropTurn_status : (s.dropTurn).status = s.status := rfl
@[simp] theorem State.dropTurn_regs : (s.dropTurn).regs = s.regs := rfl
@[simp] theorem State.dropTurn_out : (s.dropTurn).out = s.out := rfl
@[simp] theorem State.dropTurn_eng : (s.dropTurn).eng = s.eng := rfl
@[simp] theorem State.dropTurn_stuck : (s.dropTurn).stuck = s.stuck := rfl
@[simp] theorem State.dropTurn_source : (s.dropTurn).source = s.source := rfl
@[simp] theorem State.dropTurn_changed : (s.dropTurn).changed = s.changed := rfl
@[simp] theorem State.dropTurn_readData : (s.dropTurn).readData = s.readData := rfl
@[simp] theorem State.dropTurn_observed : (s.dropTurn).observed = s.observed := rfl
@[simp] theorem State.dropTurn_hosts : (s.dropTurn).hosts = s.hosts := rfl
@[simp] theorem State.dropTurn_turns : (s.dropTurn).turns = s.turns.tail := rfl
@[simp] theorem State.dropTurn_tick : (s.dropTurn).tick = s.tick := rfl

@[simp] theorem State.onHost_params (k : Nat) (f : HostAgent → HostAgent) : (s.onHost k f).params = s.params := rfl
@[simp] theorem State.onHost_status (k : Nat) (f : HostAgent → HostAgent) : (s.onHost k f).status = s.status := rfl
@[simp] theorem State.onHost_regs (k : Nat) (f : HostAgent → HostAgent) : (s.onHost k f).regs = s.regs := rfl
@[simp] theorem State.onHost_out (k : Nat) (f : HostAgent → HostAgent) : (s.onHost k f).out = s.out := rfl
@[simp] theorem State.onHost_eng (k : Nat) (f : HostAgent → HostAgent) : (s.onHost k f).eng = s.eng := rfl
@[simp] theorem State.onHost_stuck (k : Nat) (f : HostAgent → HostAgent) : (s.onHost k f).stuck = s.stuck := rfl
@[simp] theorem State.onHost_source (k : Nat) (f : HostAgent → HostAgent) : (s.onHost k f).source = s.source := rfl
@[simp] theorem State.onHost_changed (k : Nat) (f : HostAgent → HostAgent) : (s.onHost k f).changed = s.changed := rfl
@[simp] theorem State.onHost_readData (k : Nat) (f : HostAgent → HostAgent) : (s.onHost k f).readData = s.readData := rfl
@[simp] theorem State.onHost_observed (k : Nat) (f : HostAgent → HostAgent) : (s.onHost k f).observed = s.observed := rfl
@[simp] theorem State.onHost_hosts (k : Nat) (f : HostAgent → HostAgent) : (s.onHost k f).hosts = s.hosts.modify k f := rfl
@[simp] theorem State.onHost_turns (k : Nat) (f : HostAgent → HostAgent) : (s.onHost k f).turns = s.turns := rfl
@[simp] theorem State.onHost_tick (k : Nat) (f : HostAgent → HostAgent) : (s.onHost k f).tick = s.tick := rfl

end Sys2Proof.Machine
end

