-- ==== Sys2Proof/Laws/Convert.lean ====
section
/-! SUPPORT. The arithmetic of the conversion: the maps stay in range, the addresses in the buffer,
    and the bytes of the
result are their bits. -/

namespace Sys2Proof.Machine

open Sys2Proof

/-- R106, columns. -/
theorem mapX_lt (m : NnMap) {w dx : Nat} (hw : 1 ≤ w) (h : dx ≤ 127) : mapX m w dx < w := by
  cases m <;> refine Nat.div_lt_of_lt_mul ?_
  · exact Nat.mul_lt_mul_of_pos_right (by omega) hw
  · exact Nat.mul_lt_mul_of_pos_right (by omega) hw

/-- R106, rows. -/
theorem mapY_lt (m : NnMap) {w dx : Nat} (hw : 1 ≤ w) (h : dx ≤ 63) : mapY m w dx < w := by
  cases m <;> refine Nat.div_lt_of_lt_mul ?_
  · exact Nat.mul_lt_mul_of_pos_right (by omega) hw
  · exact Nat.mul_lt_mul_of_pos_right (by omega) hw

/-- ValidShape as a proposition (R133). -/
theorem validShape_iff (r : Regs) : validShape r = true ↔ (1 ≤ r.srcWidth.toNat ∧ 1 ≤ r.srcHeight.toNat ∧
    r.srcLen.toNat = r.srcWidth.toNat * r.srcHeight.toNat * 3 ∧ r.srcBase.toNat + r.srcLen.toNat ≤ 2 ^ 32) := by
  simp only [validShape, decide_eq_true_eq]

/-- R106: a channel of a pixel of the image lies in the buffer. -/
theorem srcAddr_inBuffer {r : Regs} (hv : validShape r = true) {x y c : Nat} (hx : x < r.srcWidth.toNat)
    (hy : y < r.srcHeight.toNat)
   (hc : c ≤ 2) : r.srcBase.toNat ≤ srcAddr r.srcBase.toNat r.srcWidth.toNat x y c ∧
       srcAddr r.srcBase.toNat r.srcWidth.toNat x y c < r.srcBase.toNat + r.srcLen.toNat := by
  obtain ⟨h1, h2, h3, h4⟩ := (validShape_iff r).1 hv
  unfold srcAddr
  have : y * r.srcWidth.toNat + x + 1 ≤ r.srcWidth.toNat * r.srcHeight.toNat := by
    have : (y + 1) * r.srcWidth.toNat ≤ r.srcHeight.toNat * r.srcWidth.toNat := Nat.mul_le_mul_right _ hy
    rw [Nat.add_mul, one_mul, Nat.mul_comm r.srcHeight.toNat] at this
    omega
  omega

/-- R106: a channel that the engine reads lies in the buffer. -/
theorem pixelAddr_inBuffer {s : State} (hv : validShape s.regs = true) {i c : Nat} (hi : i < 8192) (hc : c ≤ 2) :
    inBuffer s.regs (s.pixelAddr i + c) = true := by
  have hv' := (validShape_iff _).1 hv
  have := srcAddr_inBuffer hv (mapX_lt s.params.nnMap hv'.1 (show pixelX i ≤ 127 by unfold pixelX; omega))
    (mapY_lt s.params.nnMap hv'.2.1 (show pixelY i ≤ 63 by unfold pixelY; omega)) hc
  simp only [inBuffer, Bool.and_eq_true, decide_eq_true_eq]
  unfold State.pixelAddr pixelAddr
  simp only [srcAddr] at *
  omega

/-- No average exceeds 255. -/
theorem avg_le (m) (r g b : Byte) : avg m r g b ≤ 255 := by
  have := r.isLt; have := g.isLt; have := b.isLt
  cases m <;> simp only [avg] <;> omega

/-- The sum of R127, written out. -/
theorem convertByte_eq (p img w h t k) : convertByte p img w h t k =
   (destBit p img w h t (8 * (k % 16)) (k / 16)).toNat * 128 +
   (destBit p img w h t (8 * (k % 16) + 1) (k / 16)).toNat * 64 +
   (destBit p img w h t (8 * (k % 16) + 2) (k / 16)).toNat * 32 +
   (destBit p img w h t (8 * (k % 16) + 3) (k / 16)).toNat * 16 +
   (destBit p img w h t (8 * (k % 16) + 4) (k / 16)).toNat * 8 +
   (destBit p img w h t (8 * (k % 16) + 5) (k / 16)).toNat * 4 +
   (destBit p img w h t (8 * (k % 16) + 6) (k / 16)).toNat * 2 +
   (destBit p img w h t (8 * (k % 16) + 7) (k / 16)).toNat := by
  simp [convertByte, List.range_succ, Nat.add_assoc]

/-- Eight bits and the number they make. -/
theorem sum_bits (b0 b1 b2 b3 b4 b5 b6 b7 : Bool) :
    let n := b0.toNat * 128 + b1.toNat * 64 + b2.toNat * 32 + b3.toNat * 16 + b4.toNat * 8 + b5.toNat * 4 +
        b6.toNat * 2 + b7.toNat
    n < 256 ∧ n.testBit 7 = b0 ∧ n.testBit 6 = b1 ∧ n.testBit 5 = b2 ∧ n.testBit 4 = b3 ∧ n.testBit 3 = b4 ∧
        n.testBit 2 = b5 ∧ n.testBit 1 = b6 ∧
    n.testBit 0 = b7 := by
  revert b0 b1 b2 b3 b4 b5 b6 b7; decide +kernel

/-- The bits of a byte of the result (R127). -/
theorem convertByte_testBit (p img w h t k) {j : Nat} (hj : j < 8) :
    (convertByte p img w h t k).testBit (7 - j) = destBit p img w h t (8 * (k % 16) + j) (k / 16) := by
  rw [convertByte_eq]
  obtain ⟨h0, h1, h2, h3, h4, h5, h6, h7, h8⟩ := sum_bits (destBit p img w h t (8 * (k % 16)) (k / 16))
      (destBit p img w h t (8 * (k % 16) + 1) (k / 16))
    (destBit p img w h t (8 * (k % 16) + 2) (k / 16)) (destBit p img w h t (8 * (k % 16) + 3) (k / 16))
        (destBit p img w h t (8 * (k % 16) + 4) (k / 16))
    (destBit p img w h t (8 * (k % 16) + 5) (k / 16)) (destBit p img w h t (8 * (k % 16) + 6) (k / 16))
        (destBit p img w h t (8 * (k % 16) + 7) (k / 16))
  interval_cases j
  exacts [h1, h2, h3, h4, h5, h6, h7, h8]

/-- A byte of the result is a byte. -/
theorem convertByte_lt (p img w h t k) : convertByte p img w h t k < 256 := by
  rw [convertByte_eq]
  exact (sum_bits _ _ _ _ _ _ _ _).1

/-- Equal reads, equal bytes. -/
theorem sourceByte_congr {s t : State} {a} (h : s.source.read a = t.source.read a)
    : sourceByte s a = sourceByte t a := by
  unfold sourceByte; rw [h]

/-- A bit of the result depends on the buffer's bytes alone. -/
theorem destBit_congr {s t : State} (hp : t.params = s.params) (hr : t.regs = s.regs) (hv : validShape s.regs = true)
    (h : ∀ a, inBuffer s.regs a = true → t.source.read a = s.source.read a) {i : Nat} (hi : i < 8192) :
    t.destBit (pixelX i) (pixelY i) = s.destBit (pixelX i) (pixelY i) := by
  have key : ∀ c, c ≤ 2 → t.source.read (s.pixelAddr i + c) = s.source.read (s.pixelAddr i + c) := fun c hc =>
    h _ (pixelAddr_inBuffer hv hi hc)
  unfold State.destBit destBit State.image
  rw [hp, hr]
  unfold State.pixelAddr pixelAddr at key
  simp only [srcAddr, Nat.add_zero] at *
  have k0 := sourceByte_congr (key 0 (by omega))
  rw [Nat.add_zero] at k0
  rw [k0, sourceByte_congr (key 1 (by omega)), sourceByte_congr (key 2 (by omega))]

/-- A byte of the result depends on the buffer's bytes alone (R40). -/
theorem convert_congr {s t : State} (hp : t.params = s.params) (hr : t.regs = s.regs) (hv : validShape s.regs = true)
    (h : ∀ a, inBuffer s.regs a = true → t.source.read a = s.source.read a) {k : Nat} (hk : k < 1024)
        : t.convert k = s.convert k := by
  unfold State.convert
  rw [convertByte_eq, convertByte_eq]
  have key : ∀ b, b < 8 → t.destBit (8 * (k % 16) + b) (k / 16) = s.destBit (8 * (k % 16) + b) (k / 16) := by
    intro b hb
    have := destBit_congr hp hr hv h (i := 8 * k + b) (by omega)
    unfold pixelX pixelY at this
    rwa [show (8 * k + b) % 128 = 8 * (k % 16) + b by omega, show (8 * k + b) / 128 = k / 16 by omega] at this
  unfold State.destBit at key
  have k0 := key 0 (by omega)
  rw [Nat.add_zero] at k0
  rw [k0, key 1 (by omega), key 2 (by omega), key 3 (by omega), key 4 (by omega), key 5 (by omega),
      key 6 (by omega), key 7 (by omega)]

end Sys2Proof.Machine
end

