-- ==== Sys2Proof/Laws/Decode.lean ====
section
/-! SUPPORT. Decoding: when a transaction is legal (R49), which row of R68 takes which descriptor, and what the
encodings of the instructions are. -/

namespace Sys2Proof

/-- A transaction has no problem exactly where R49 admits it. -/
theorem accessProblem_eq_none {off : BitVec 12} {n : Nat} :
    accessProblem off n = none ↔
      (off.toNat < 0x400 ∧ n = 4 ∧ off.toNat % 4 = 0) ∨
      (0x400 ≤ off.toNat ∧ (n = 1 ∨ n = 2 ∨ n = 4) ∧ off.toNat % n = 0) := by
  unfold accessProblem
  split_ifs with h1 h2 h3 <;> simp only [false_iff, true_iff]
  · rintro (h | h) <;> omega
  · rcases Nat.lt_or_ge off.toNat 0x400 with h | h
    · left
      have : n = 4 := by omega
      subst this
      exact ⟨h, rfl, h3⟩
    · exact .inr ⟨h, h1, h3⟩
  · rintro (⟨-, rfl, h⟩ | ⟨-, -, h⟩) <;> exact h3 h
  · rintro (⟨-, rfl, -⟩ | ⟨-, h, -⟩) <;> omega

@[simp] theorem Size.ofBytes_bytes (n : Size) : Size.ofBytes n.bytes = n := by cases n <;> rfl

theorem Size.bytes_legal (n : Size) : n.bytes = 1 ∨ n.bytes = 2 ∨ n.bytes = 4 := by cases n <;> decide

theorem Size.bytes_ofBytes {n : Nat} (h : n = 1 ∨ n = 2 ∨ n = 4) : (Size.ofBytes n).bytes = n := by
  rcases h with rfl | rfl | rfl <;> rfl

theorem and_row_mask (d : BitVec 13) : (d &&& (0x1C00 : BitVec 13)).toNat = d.toNat / 1024 * 1024 := by
  have h : d &&& (0x1C00 : BitVec 13) = (d >>> 10) <<< 10 := by
    ext j hj
    interval_cases j <;> simp
  rw [h, BitVec.toNat_shiftLeft, BitVec.toNat_ushiftRight, Nat.shiftRight_eq_div_pow, Nat.shiftLeft_eq]
  have := d.isLt
  omega

theorem and_last_mask (d : BitVec 13) : (d &&& (0x1000 : BitVec 13)).toNat = d.toNat / 4096 * 4096 := by
  have h : d &&& (0x1000 : BitVec 13) = (d >>> 12) <<< 12 := by
    ext j hj
    interval_cases j <;> simp
  rw [h, BitVec.toNat_shiftLeft, BitVec.toNat_ushiftRight, Nat.shiftRight_eq_div_pow, Nat.shiftLeft_eq]
  have := d.isLt
  omega

theorem and_full_mask (d : BitVec 13) : (d &&& (0x1FFF : BitVec 13)).toNat = d.toNat := congrArg _ BitVec.and_allOnes

/-- The first row a descriptor matches, by the descriptor's number. -/
theorem firstRow_cons (d : BitVec 13) (op : BusOp) (p m : BitVec 13) (l : List BusRow) :
    firstRow d (⟨op, p, m⟩ :: l) = if (d &&& m).toNat = p.toNat then op else firstRow d l := by
  simp only [firstRow, BitVec.toNat_eq]

/-- The row of a descriptor, from its direction and offset alone. -/
def rowOf (write : Bool) (off : Nat) : BusOp :=
  if off = 0x000 then if write then .wrCmd else .rdCmd
  else if off = 0x004 then if write then .wrStatus else .rdStatus
  else if off = 0x008 then if write then .wrSrcBase else .rdSrcBase
  else if off = 0x00C then if write then .wrSrcLen else .rdSrcLen
  else if off = 0x010 then if write then .wrSrcWidth else .rdSrcWidth
  else if off = 0x014 then if write then .wrSrcHeight else .rdSrcHeight
  else if off = 0x018 then if write then .wrThreshold else .rdThreshold
  else if 0x400 ≤ off ∧ off < 0x800 then if write then .wrOut else .rdOut
  else if write then .wrReserved else .rdReserved

theorem rowOf_out (w : Bool) {o : Nat} (h : 0x400 ≤ o) (h2 : o < 0x800) : rowOf w o = if w then .wrOut else .rdOut := by
  unfold rowOf
  repeat first | refine (if_neg (by omega)).trans ?_ | refine (if_pos (by omega)).trans ?_
  rfl

theorem rowOf_reserved (w : Bool) {o : Nat} (h : 0x01C ≤ o) (h2 : o < 0x400 ∨ 0x800 ≤ o) :
    rowOf w o = if w then .wrReserved else .rdReserved := by
  unfold rowOf
  repeat first | refine (if_neg (by omega)).trans ?_ | refine (if_pos (by omega)).trans ?_
  rfl

/-- The offset of a legal transaction is a register's, one of the OUT window, or a reserved one. -/
theorem legal_offset_cases {o n : Nat} (h : (o < 0x400 ∧ n = 4 ∧ o % 4 = 0) ∨
      (0x400 ≤ o ∧ (n = 1 ∨ n = 2 ∨ n = 4) ∧ o % n = 0)) :
    (o = 0x000 ∨ o = 0x004 ∨ o = 0x008 ∨ o = 0x00C ∨ o = 0x010 ∨ o = 0x014 ∨ o = 0x018) ∨
      (0x400 ≤ o ∧ o < 0x800) ∨ (0x01C ≤ o ∧ (o < 0x400 ∨ 0x800 ≤ o)) := by
  omega

/-- The table of R68 by masks, and its reading by direction and offset, agree on all 8192 descriptors. -/
theorem decodeRow_eq_rowOf (d : BitVec 13) : decodeRow d = rowOf (d.getLsbD 12) (d.setWidth 12).toNat := by
  have hx := d.isLt
  have ho : (d.setWidth 12).toNat = d.toNat % 4096 := BitVec.toNat_setWidth ..
  have hw : d.getLsbD 12 = decide (d.toNat / 4096 = 1) := by
    rw [BitVec.getLsbD, Nat.testBit_eq_decide_div_mod_eq, Nat.mod_eq_of_lt (by omega)]
  rw [hw, ho]
  unfold decodeRow busTable
  simp only [firstRow_cons, and_full_mask, and_row_mask]
  simp only [firstRow, lastRow, BitVec.toNat_eq, and_last_mask, BitVec.reduceToNat, rowOf, decide_eq_true_eq]
  generalize d.toNat = x at *
  clear hw ho
  rcases (by omega : x % 4096 = 0 ∨ x % 4096 = 4 ∨ x % 4096 = 8 ∨ x % 4096 = 12 ∨ x % 4096 = 16 ∨ x % 4096 = 20 ∨
      x % 4096 = 24 ∨ (1024 ≤ x % 4096 ∧ x % 4096 < 2048) ∨
      ((x % 4096 < 1024 ∨ 2048 ≤ x % 4096) ∧ x % 4096 ≠ 0 ∧ x % 4096 ≠ 4 ∧ x % 4096 ≠ 8 ∧ x % 4096 ≠ 12 ∧
        x % 4096 ≠ 16 ∧ x % 4096 ≠ 20 ∧ x % 4096 ≠ 24)) with h | h | h | h | h | h | h | h | h
  all_goals
    rcases (by omega : x / 4096 = 0 ∨ x / 4096 = 1) with hw | hw
    all_goals
      repeat first | refine (if_neg (by omega)).trans ?_ | refine (if_pos (by omega)).trans ?_
      symm
      repeat first | refine (if_neg (by omega)).trans ?_ | refine (if_pos (by omega)).trans ?_
      rfl

theorem Txn.decodeRow_eq (t : Txn) : decodeRow t.desc = rowOf t.isWrite t.off.toNat := decodeRow_eq_rowOf t.desc

/-- The number of a descriptor written as its high bits before its low bits. -/
theorem toNat_desc_append {u v : Nat} (x : BitVec u) (y : BitVec v) : (x ++ y).toNat = x.toNat * 2 ^ v + y.toNat := by
  rw [BitVec.toNat_append, ← Nat.shiftLeft_add_eq_or_of_lt y.isLt, Nat.shiftLeft_eq]

/-- The direction and offset of a transaction, from the number of its descriptor. -/
theorem Txn.isWrite_eq (t : Txn) : t.isWrite = decide (4096 ≤ t.desc.toNat) := by
  have := t.desc.isLt
  rw [Txn.isWrite, BitVec.getLsbD, Nat.testBit_eq_decide_div_mod_eq]
  congr 1
  simp only [eq_iff_iff]
  omega

theorem Txn.off_toNat (t : Txn) : t.off.toNat = t.desc.toNat % 4096 := BitVec.toNat_setWidth ..

/-- A descriptor below 2^13, by its direction and its offset. -/
theorem Txn.fields_of_desc (t : Txn) (off : Nat) (w : Bool) (h : t.desc.toNat = (if w then 4096 else 0) + off)
    (ho : off < 4096) : t.off.toNat = off ∧ t.isWrite = w := by
  rw [Txn.off_toNat, Txn.isWrite_eq, h]
  cases w <;> simp <;> omega

/-- A legal transaction decodes to its row's instruction, any other to the reason it is refused. -/
theorem decodeBus_eq_ok {t : Txn} {i : Instr} :
    decodeBus t = .ok i ↔ accessProblem t.off t.size = none ∧ i = (rowOf t.isWrite t.off.toNat).instr t := by
  unfold decodeBus
  rw [Txn.decodeRow_eq]
  cases accessProblem t.off t.size <;> simp [eq_comm]

theorem decodeBus_of_row {t : Txn} {op : BusOp} (ha : accessProblem t.off t.size = none)
    (hr : rowOf t.isWrite t.off.toNat = op) : decodeBus t = .ok (op.instr t) :=
  decodeBus_eq_ok.2 ⟨ha, by rw [hr]⟩

/-- A transaction of 4 bytes with a given descriptor and any data word, by its row. -/
theorem decodeBus_register (desc : BitVec 13) (op : BusOp) (d : Word)
    (ha : accessProblem (desc.setWidth 12) 4 = none)
    (hr : rowOf (desc.getLsbD 12) (desc.setWidth 12).toNat = op) : decodeBus ⟨desc, 4, d⟩ = .ok (op.instr ⟨desc, 4, d⟩) :=
  decodeBus_of_row ha hr

/-- The transaction of an aligned OUT access decodes to it (R68, R49). -/
theorem decodeBus_out {k : BitVec 10} {n : Size} (h : k.toNat % n.bytes = 0) (w : Bool) (hi : BitVec 3)
    (hw : hi.toNat = if w then 5 else 1) (d : Word) :
    decodeBus ⟨hi ++ k, n.bytes, d⟩ = .ok (if w then .wrOut k n d else .rdOut k n) := by
  have := k.isLt
  obtain ⟨h1, h2⟩ := Txn.fields_of_desc ⟨hi ++ k, n.bytes, d⟩ (1024 + k.toNat) w
    (by rw [toNat_desc_append, hw]; cases w <;> simp; omega) (by omega)
  have hk : (hi ++ k).setWidth 10 = k := by
    apply BitVec.eq_of_toNat_eq
    rw [BitVec.toNat_setWidth, toNat_desc_append]
    omega
  have ha : accessProblem (⟨hi ++ k, n.bytes, d⟩ : Txn).off n.bytes = none := by
    refine accessProblem_eq_none.2 (.inr ?_)
    rw [h1]
    refine ⟨by omega, n.bytes_legal, ?_⟩
    rcases n.bytes_legal with hb | hb | hb <;> rw [hb] at h ⊢ <;> omega
  have hr : rowOf (⟨hi ++ k, n.bytes, d⟩ : Txn).isWrite (⟨hi ++ k, n.bytes, d⟩ : Txn).off.toNat =
      if w then .wrOut else .rdOut := by
    rw [h1, h2, rowOf_out _ (by omega) (by omega)]
  rw [decodeBus_of_row ha hr]
  cases w <;> simp [BusOp.instr, hk]

/-- The transaction of a legal access of a reserved offset decodes to it (R68, R49). -/
theorem decodeBus_reserved {off : BitVec 12} {n : Size}
    (h : (0x01C ≤ off.toNat ∧ off.toNat ≤ 0x3FF ∧ n = .b4 ∧ off.toNat % 4 = 0) ∨
      (0x800 ≤ off.toNat ∧ off.toNat % n.bytes = 0)) (w : Bool) (hi : BitVec 1) (hw : hi.toNat = w.toNat) (d : Word) :
    decodeBus ⟨hi ++ off, n.bytes, d⟩ = .ok (if w then .wrReserved off n d else .rdReserved off n) := by
  have := off.isLt
  obtain ⟨h1, h2⟩ := Txn.fields_of_desc ⟨hi ++ off, n.bytes, d⟩ off.toNat w
    (by rw [toNat_desc_append, hw]; cases w <;> simp) (by omega)
  have ha : accessProblem (⟨hi ++ off, n.bytes, d⟩ : Txn).off n.bytes = none := by
    refine accessProblem_eq_none.2 ?_
    rw [h1]
    rcases h with ⟨_, h3, rfl, h4⟩ | ⟨h3, h4⟩
    · exact .inl ⟨by omega, rfl, h4⟩
    · exact .inr ⟨by omega, n.bytes_legal, h4⟩
  have hr : rowOf (⟨hi ++ off, n.bytes, d⟩ : Txn).isWrite (⟨hi ++ off, n.bytes, d⟩ : Txn).off.toNat =
      if w then .wrReserved else .rdReserved := by
    rw [h1, h2, rowOf_reserved _ (by omega) (by omega)]
  have ho : (⟨hi ++ off, n.bytes, d⟩ : Txn).off = off := BitVec.eq_of_toNat_eq h1
  rw [decodeBus_of_row ha hr]
  cases w <;> simp [BusOp.instr, ho]

/-- A legal size survives the layout of `txnOfBits`, and so does the whole transaction. -/
theorem txnOfBits_bitsOfTxn (t : Txn) (h : t.size = 1 ∨ t.size = 2 ∨ t.size = 4) : txnOfBits (bitsOfTxn t) = some t := by
  obtain ⟨d, n, x⟩ := t
  have hd := d.isLt
  have hx := x.isLt
  have hn : n % 4 < 4 := Nat.mod_lt _ (by omega)
  simp only [bitsOfTxn] at *
  unfold txnOfBits
  rw [if_pos ⟨by omega, by omega, by omega⟩]
  congr 2
  · apply BitVec.eq_of_toNat_eq
    rw [BitVec.toNat_ofNat]; omega
  · rw [show (d.toNat + n % 4 * 2 ^ 16 + x.toNat * 2 ^ 32) / 2 ^ 16 % 4 = n % 4 by omega]
    split_ifs <;> omega
  · apply BitVec.eq_of_toNat_eq
    rw [BitVec.toNat_ofNat]; omega

/-- Encoding a row's instruction is no command word. -/
theorem BusOp.instr_ne_command (op : BusOp) (t : Txn) :
    op.instr t ≠ .nop ∧ op.instr t ≠ .convert ∧ ∀ w, op.instr t ≠ .cmdReserved w := by
  cases op <;> simp [BusOp.instr]

end Sys2Proof
end

