-- ==== Sys2Proof/Laws/Exec.lean ====
section
/-! SUPPORT. What the shared operations and the instructions can do: the access check, the gate on writes, the words a
read returns, and every next state of `exec`. -/

namespace Sys2Proof.Machine

open Sys2Proof

/-- A problem is named exactly where there is one. -/
theorem accessProblem_isSome {off n} : (∃ e, accessProblem off n = some e) ↔ ¬ accessProblem off n = none := by
  cases accessProblem off n <;> simp

/-- R49 in the OUT window: alignment alone. -/
theorem accessProblem_out (k : BitVec 10) (n : Size) :
    accessProblem (outOffset k) n.bytes = if k.toNat % n.bytes = 0 then none else some .misaligned := by
  have hk := k.isLt
  have hb := n.bytes_legal
  have hd : (outOffset k).toNat = 1024 + k.toNat := toNat_desc_append 0b01#2 k
  unfold accessProblem
  rw [if_pos hb, hd, if_neg (by omega)]
  have : (1024 + k.toNat) % n.bytes = 0 ↔ k.toNat % n.bytes = 0 := by
    rcases hb with h | h | h <;> rw [h] <;> omega
  simp only [this]

/-- R49 for the rows of the reserved offsets. -/
theorem accessProblem_reserved (off : BitVec 12) (n : Size) :
    accessProblem off n.bytes = if off.toNat < 0x400 ∧ n ≠ .b4 then some .subWordRegister else
      if off.toNat % n.bytes = 0 then none else some .misaligned := by
  unfold accessProblem
  rw [if_pos n.bytes_legal]
  cases n <;> simp [Size.bytes]

/-- A legal access goes on. -/
theorem ifLegal_of_none {off n s} (h : accessProblem off n.bytes = none) : ifLegal off n s = .next s := by
  unfold ifLegal; rw [h]

/-- The access check changes nothing. -/
theorem ifLegal_next {off n s t} (h : ifLegal off n s = .next t) : t = s := by
  unfold ifLegal at h; split at h <;> simp_all

/-- An aligned OUT access goes on. -/
theorem ifLegal_out {s : State} {k : BitVec 10} {n : Size} (h : k.toNat % n.bytes = 0) : ifLegal (outOffset k)
    n s = .next s := by
  apply ifLegal_of_none
  rw [accessProblem_out, if_pos h]

/-- A legal access of a reserved offset goes on. -/
theorem ifLegal_reserved (s : State) (off : BitVec 12) (n : Size) (h : (0x01C ≤ off.toNat ∧ off.toNat ≤ 0x3FF ∧
    n = .b4 ∧ off.toNat % 4 = 0) ∨
        (0x800 ≤ off.toNat ∧ off.toNat % n.bytes = 0)) : ifLegal off n s = .next s := by
  apply ifLegal_of_none
  rw [accessProblem_reserved]
  rcases h with ⟨h1, h2, rfl, h3⟩ | ⟨h1, h2⟩
  · rw [if_neg (by simp)]; simp [Size.bytes, h3]
  · rw [if_neg (by omega), if_pos h2]

/-- With BUSY = 1 a gated write only sets WIGN. -/
theorem gatedWrite_busy {s : State} (h : s.status.busy = true) (f) : gatedWrite s f = s.ignoreWrite := if_pos h

/-- With BUSY = 0 a gated write has its effect. -/
theorem gatedWrite_idle {s : State} (h : s.status.busy = false) (f) : gatedWrite s f = f s := if_neg (by simp [h])

/-- A flag is bit 0 of its word. -/
theorem flagBit_getLsbD (b : Bool) (j : Nat) : (flagBit b).getLsbD j = (decide (j = 0) && b) := by
  cases b <;> simp [flagBit, BitVec.getLsbD_one]

/-- STATUS as a host reads it, bit by bit (R23). -/
theorem Status.word_getLsbD (f : Status) (j : Nat) : f.word.getLsbD j =
    if j = 0 then f.busy else if j = 1 then f.done else if j = 2 then f.err else if j = 3 then f.wign
    else if 8 ≤ j ∧ j < 12 then f.errCode.getLsbD (j - 8) else false := by
  simp only [Status.word, BitVec.getLsbD_or, BitVec.getLsbD_shiftLeft, BitVec.getLsbD_setWidth, flagBit_getLsbD]
  rcases (by omega : j < 12 ∨ 12 ≤ j) with h | h
  · interval_cases j <;> simp
  · have : f.errCode.getLsbD (j - 8) = false := BitVec.getLsbD_of_ge _ _ (by omega)
    simp [this, show j ≠ 0 by omega, show j ≠ 1 by omega, show j ≠ 2 by omega, show j ≠ 3 by omega,
        show ¬ j < 12 by omega,
     show j - 1 ≠ 0 by omega, show j - 2 ≠ 0 by omega, show j - 3 ≠ 0 by omega]

/-- Little-endian assembly, bit by bit (R47, R66). -/
theorem assemble_getLsbD (f : Nat → Byte) (n j : Nat) (hn : n ≤ 4) :
    (assemble f n).getLsbD j = (decide (j < 8 * n) && (f (j / 8)).getLsbD (j % 8)) := by
  induction n with
  | zero => simp [assemble]
  | succ n ih =>
    simp only [assemble, BitVec.getLsbD_or, ih (by omega), BitVec.getLsbD_shiftLeft, BitVec.getLsbD_setWidth]
    rcases Nat.lt_trichotomy (j / 8) n with h | h | h
    · simp [show j < 8 * n by omega, show j < 8 * (n + 1) by omega]
    · have : j - 8 * n = j % 8 := by omega
      simp [show ¬ j < 8 * n by omega, show j < 8 * (n + 1) by omega, h, this, show j < 32 by omega,
          show j % 8 < 32 by omega]
    · simp only [show ¬ j < 8 * n by omega, show ¬ j < 8 * (n + 1) by omega, decide_false, Bool.false_and,
          Bool.false_or]
      rw [BitVec.getLsbD_of_ge _ (j - 8 * n) (by omega)]
      simp

/-- The two effects of an accepted CONVERT, whole (R81). -/
theorem convertEffect_cases (s : State) :
   (validShape s.regs = true ∧ convertEffect s =
       { s with status := ⟨true, false, false, false, 0⟩, eng := Engine.start, stuck := false, changed := [] }) ∨
   (validShape s.regs = false ∧ convertEffect s = { s with status := ⟨s.status.busy, true, true, false, 1⟩ }) := by
  unfold convertEffect
  cases validShape s.regs
  · exact .inr ⟨rfl, rfl⟩
  · exact .inl ⟨rfl, rfl⟩

/-- CONVERT does not look at the plan. -/
theorem convertEffect_dropTurn (s : State) : convertEffect s.dropTurn = (convertEffect s).dropTurn := by
  unfold convertEffect
  show (if validShape s.regs = true then _ else _) = _
  split_ifs <;> rfl

/-- The data word of a read depends on the engine's visible state and the draw alone. -/
theorem read_congr {i : Instr} {s u t v : State} (hr : i.isRead = true) (h1 : s.status = u.status)
    (h2 : s.regs = u.regs)
   (h3 : s.out = u.out) (h4 : s.tick = u.tick) (hs : exec i s = .next t) (hu : exec i u = .next v)
       : t.readData = v.readData := by
  cases i <;> simp only [Instr.isRead, Bool.false_eq_true] at hr
  case rdOut k n => rw [ifLegal_next hs, ifLegal_next hu]; simp [State.returnData, outData, outByte, h1, h3, h4]
  case rdReserved k n => rw [ifLegal_next hs, ifLegal_next hu]; rfl
  all_goals
    simp only [exec] at hs hu
    injection hs with hs
    injection hu with hu
    subst hs hu
    simp [State.returnData, h1, h2]

/-- Every next state of an instruction. -/
theorem exec_cases {i : Instr} {s t : State} (h : exec i s = .next t) :
    (i.isRead = true ∧ t = s.returnData t.readData) ∨
    (i.isRead = false ∧ t = s) ∨
    (i.isGated = true ∧ s.status.busy = true ∧ t = s.ignoreWrite) ∨
    (i.isGated = true ∧ s.status.busy = false ∧ ∃ r, t = { s with regs := r }) ∨
    (i.isGated = true ∧ s.status.busy = false ∧ (i = .convert ∨ i = .wrCmd 1) ∧ t = convertEffect s) ∨
    (i.isGated = true ∧ s.status.busy = false ∧ ((∃ w, i = .cmdReserved w) ∨ ∃ w, w ≠ 0 ∧ i = .wrCmd w) ∧
        t = cmdReservedEffect s) := by
  have hw : ∀ (f : State → State), .next (gatedWrite s f) = (Host.Outcome.next t : Host.Outcome State Fault Refusal) →
      (s.status.busy = true ∧ t = s.ignoreWrite) ∨ (s.status.busy = false ∧ t = f s) := by
    intro f h
    injection h with h
    cases hb : s.status.busy
    · rw [gatedWrite_idle hb] at h; exact .inr ⟨rfl, h.symm⟩
    · rw [gatedWrite_busy hb] at h; exact .inl ⟨rfl, h.symm⟩
  cases i with
  | wrCmd d =>
    rcases hw _ h with ⟨hb, h⟩ | ⟨hb, h⟩
    · exact .inr (.inr (.inl ⟨rfl, hb, h⟩))
    · unfold commandEffect decodeCmdRow at h
      split_ifs at h with h0 h1
      · exact .inr (.inl ⟨rfl, h⟩)
      · exact .inr (.inr (.inr (.inr (.inl ⟨rfl, hb, .inr (by rw [h1]), h⟩))))
      · exact .inr (.inr (.inr (.inr (.inr ⟨rfl, hb, .inr ⟨d, h0, rfl⟩, h⟩))))
  | nop =>
    rcases hw _ h with ⟨hb, h⟩ | ⟨hb, h⟩
    · exact .inr (.inr (.inl ⟨rfl, hb, h⟩))
    · exact .inr (.inl ⟨rfl, h⟩)
  | convert =>
    rcases hw _ h with ⟨hb, h⟩ | ⟨hb, h⟩
    · exact .inr (.inr (.inl ⟨rfl, hb, h⟩))
    · exact .inr (.inr (.inr (.inr (.inl ⟨rfl, hb, .inl rfl, h⟩))))
  | cmdReserved w =>
    rcases hw _ h with ⟨hb, h⟩ | ⟨hb, h⟩
    · exact .inr (.inr (.inl ⟨rfl, hb, h⟩))
    · exact .inr (.inr (.inr (.inr (.inr ⟨rfl, hb, .inl ⟨w, rfl⟩, h⟩))))
  | wrSrcBase d =>
    rcases hw _ h with ⟨hb, h⟩ | ⟨hb, h⟩
    · exact .inr (.inr (.inl ⟨rfl, hb, h⟩))
    · exact .inr (.inr (.inr (.inl ⟨rfl, hb, _, h⟩)))
  | wrSrcLen d =>
    rcases hw _ h with ⟨hb, h⟩ | ⟨hb, h⟩
    · exact .inr (.inr (.inl ⟨rfl, hb, h⟩))
    · exact .inr (.inr (.inr (.inl ⟨rfl, hb, _, h⟩)))
  | wrSrcWidth d =>
    rcases hw _ h with ⟨hb, h⟩ | ⟨hb, h⟩
    · exact .inr (.inr (.inl ⟨rfl, hb, h⟩))
    · exact .inr (.inr (.inr (.inl ⟨rfl, hb, _, h⟩)))
  | wrSrcHeight d =>
    rcases hw _ h with ⟨hb, h⟩ | ⟨hb, h⟩
    · exact .inr (.inr (.inl ⟨rfl, hb, h⟩))
    · exact .inr (.inr (.inr (.inl ⟨rfl, hb, _, h⟩)))
  | wrThreshold d =>
    rcases hw _ h with ⟨hb, h⟩ | ⟨hb, h⟩
    · exact .inr (.inr (.inl ⟨rfl, hb, h⟩))
    · exact .inr (.inr (.inr (.inl ⟨rfl, hb, _, h⟩)))
  | rdOut k n => exact .inl ⟨rfl, by rw [ifLegal_next h]; rfl⟩
  | rdReserved k n => exact .inl ⟨rfl, by rw [ifLegal_next h]; rfl⟩
  | wrOut k n => exact .inr (.inl ⟨rfl, ifLegal_next h⟩)
  | wrReserved k n => exact .inr (.inl ⟨rfl, ifLegal_next h⟩)
  | wrStatus d => injection h with h; exact .inr (.inl ⟨rfl, h.symm⟩)
  | _ => injection h with h; exact .inl ⟨rfl, by rw [← h]; rfl⟩

/-- No transaction decodes to a command word's constructor. -/
theorem bus_not_command {x : Txn} {i : Instr} (h : decodeBus x = .ok i) : i ≠ .nop ∧ i ≠ .convert ∧ ∀ w,
    i ≠ .cmdReserved w := by
  rw [(decodeBus_eq_ok.1 h).2]; exact BusOp.instr_ne_command _ _

/-- Every next state of a transaction. -/
theorem exec_bus_cases {x : Txn} {i : Instr} {s t : State} (hd : decodeBus x = .ok i) (h : exec i s = .next t) :
    t = s.returnData t.readData ∨
    (i.isGated = true ∧ s.status.busy = true ∧ t = s.ignoreWrite) ∨
    (s.status.busy = false ∧ ∃ r, t = { s with regs := r }) ∨
    (s.status.busy = false ∧ i = .wrCmd 1 ∧ t = convertEffect s) ∨
    (s.status.busy = false ∧ (∃ w, w ≠ 0 ∧ i = .wrCmd w) ∧ t = cmdReservedEffect s) := by
  obtain ⟨hn, hc, hr⟩ := bus_not_command hd
  rcases exec_cases h with ⟨-, h⟩ | ⟨-, rfl⟩ | ⟨hg, hb, h⟩ | ⟨-, hb, h⟩ | ⟨-, hb, hi | hi, h⟩ | ⟨-, hb, ⟨w, hi⟩
      | hi, h⟩
  · exact .inl h
  · exact .inl rfl
  · exact .inr (.inl ⟨hg, hb, h⟩)
  · exact .inr (.inr (.inl ⟨hb, h⟩))
  · exact absurd hi hc
  · exact .inr (.inr (.inr (.inl ⟨hb, hi, h⟩)))
  · exact absurd hi (hr w)
  · exact .inr (.inr (.inr (.inr ⟨hb, hi, h⟩)))

end Sys2Proof.Machine
end

