-- ==== Sys2Proof/Laws/Platform.lean ====
section
/-! SUPPORT. What the platform's turns do (R44, R59). -/

namespace Sys2Proof.Machine

open Sys2Proof

/-- A placed bit. -/
theorem placeBit_getLsbD (b : Bool) (nb j : Nat) : (placeBit b nb).getLsbD j = (b && decide (j = 7 - nb)) := by
  unfold placeBit
  cases b
  · simp
  · simp only [if_true, Bool.true_and, BitVec.getLsbD_shiftLeft]
    have h7 : 7 - nb < 8 := by omega
    rcases Nat.lt_trichotomy j (7 - nb) with h | h | h
    · simp [h, Nat.ne_of_lt h]
    · subst h; simp [h7]
    · simp only [show ¬ j < 7 - nb by omega, decide_false, Bool.not_false, Bool.and_true, show ¬ j = 7 - nb by omega]
      rw [BitVec.getLsbD_one]; simp; omega

/-- A byte with one pixel's bit replaced. -/
theorem replaceBit_getLsbD (x : Byte) (nb : Nat) (b : Bool) {j : Nat} (hj : j < 8) :
    (replaceBit x nb b).getLsbD j = if j = 7 - nb then b else x.getLsbD j := by
  unfold replaceBit
  rw [BitVec.getLsbD_or, BitVec.getLsbD_and, BitVec.getLsbD_not, placeBit_getLsbD, placeBit_getLsbD]
  by_cases h : j = 7 - nb <;> simp [h, hj]

/-- Which bits of a packed byte are drawn again. -/
theorem redrawnPixels_getLsbD (s : State) (a first : Nat) (x : Byte) {n q : Nat} (hn : n ≤ 8) (hq : q < 8) :
    (redrawnPixels s a first x n).getLsbD (7 - q) =
      if q < n ∧ s.pixelUses (first + q) a = true then redrawnBit s (first + q) else x.getLsbD (7 - q) := by
  induction n with
  | zero => simp [redrawnPixels]
  | succ n ih =>
    have ih := ih (by omega)
    unfold redrawnPixels
    by_cases hu : s.pixelUses (first + n) a = true
    · rw [if_pos hu, replaceBit_getLsbD _ _ _ (by omega), ih]
      by_cases hqn : q = n
      · subst hqn; simp [hu]
      · rw [if_neg (by omega)]
        have : q < n + 1 ↔ q < n := by omega
        simp only [this]
    · rw [if_neg hu, ih]
      by_cases hqn : q = n
      · subst hqn; simp [hu]
      · have : q < n + 1 ↔ q < n := by omega
        simp only [this]

/-- Bits not filled stay 0. -/
theorem redrawnPixels_low {s : State} {a first : Nat} {x : Byte} {nb : Nat} (hnb : nb < 8) (hlow : ∀ j,
    j < 8 - nb → x.getLsbD j = false) (n : Nat) (hn : n ≤ nb) :
    ∀ j, j < 8 - nb → (redrawnPixels s a first x n).getLsbD j = false := by
  induction n with
  | zero => exact hlow
  | succ n ih =>
    intro j hj
    unfold redrawnPixels
    split_ifs
    · unfold replaceBit
      rw [BitVec.getLsbD_or, BitVec.getLsbD_and, ih (by omega) j hj, placeBit_getLsbD]
      simp; intro; omega
    · exact ih (by omega) j hj

/-- OUT after a change of a source byte. -/
theorem outByte_redraw (s : State) (a : Nat) {k : Nat} (hk : k < 1024) :
    outByte (s.redraw a) k = if k < s.eng.oidx then redrawnPixels s a (8 * k) (outByte s k) 8 else outByte s k := by
  unfold outByte State.redraw
  simp only
  rw [Vector.getElem?_eq_getElem hk, Vector.getElem?_eq_getElem hk, Option.getD_some, Option.getD_some,
      Vector.getElem_ofFn]
  rfl

/-- A packed pixel after a change of a source byte. -/
theorem packedBit_redraw {s : State} (he : s.eng.wf true) (a : Nat) {i : Nat} (hi : i < s.eng.pix) :
    (s.redraw a).packedBit i = if s.pixelUses i a = true then redrawnBit s i else s.packedBit i := by
  obtain ⟨h1, h2, h3⟩ := he.1 rfl
  simp only [nPix] at h1
  unfold State.packedBit
  rw [outByte_redraw s a (by omega)]
  show (if i / 8 < s.eng.oidx then _ else (redrawnPixels s a (8 * s.eng.oidx) s.eng.acc s.eng.nb).getLsbD _) = _
  rw [redrawnPixels_getLsbD _ _ _ _ (by omega) (by omega)]
  by_cases hk : i / 8 < s.eng.oidx
  · simp only [if_pos hk]
    rw [redrawnPixels_getLsbD _ _ _ _ (by omega) (by omega), show 8 * (i / 8) + i % 8 = i by omega]
    simp [Nat.mod_lt]
  · simp only [if_neg hk]
    rw [show 8 * s.eng.oidx + i % 8 = i by omega]
    have : i % 8 < s.eng.nb := by omega
    simp [this]

/-- The list of changed bytes has the new one. -/
theorem mem_noteChanged (l : List Nat) (a x : Nat) : x ∈ noteChanged l a ↔ x = a ∨ x ∈ l := by
  unfold noteChanged
  split_ifs with h
  · constructor
    · exact .inr
    · rintro (rfl | h')
      exacts [h, h']
  · exact List.mem_cons

/-- It is not empty. -/
theorem noteChanged_ne (l : List Nat) (a : Nat) : noteChanged l a ≠ [] := by
  unfold noteChanged
  split_ifs with h
  · rintro rfl; cases h
  · simp

/-- A change in the buffer while BUSY = 1 changes OUT, the accumulator and the list alone. -/
theorem sourceChanged_frame (s : State) (a : Nat) : ∃ o x, s.sourceChanged a =
    { s with out := o, eng := { s.eng with acc := x }, changed := noteChanged s.changed a } ∧
   x = redrawnPixels { s with changed := noteChanged s.changed a } a (8 * s.eng.oidx) s.eng.acc s.eng.nb :=
  ⟨_, _, rfl, rfl⟩

/-- Every effect of a change of source memory. -/
theorem setSource_cases (s : State) (m : Memory) (a : Nat) :
    (m.read a = s.source.read a ∧ s.setSource m a = { s with source := m }) ∨
    (s.status.busy = true ∧ inBuffer s.regs a = true ∧ m.read a ≠ s.source.read a ∧
        s.setSource m a = State.sourceChanged { s with source := m } a) ∨
    ((s.status.busy = false ∨ inBuffer s.regs a = false) ∧ s.setSource m a = { s with source := m }) := by
  unfold State.setSource
  split_ifs with h1 h2
  · exact .inl ⟨h1, rfl⟩
  · simp at h2; exact .inr (.inl ⟨h2.1, h2.2, h1, rfl⟩)
  · right; right
    refine ⟨?_, rfl⟩
    simp at h2
    cases hb : s.status.busy
    · exact .inl rfl
    · exact .inr (h2 hb)

/-- What a change of source memory can change. -/
theorem setSource_frame (s : State) (m : Memory) (a : Nat) : ∃ o x ch, s.setSource m a =
    { s with source := m, out := o, eng := { s.eng with acc := x }, changed := ch } := by
  rcases setSource_cases s m a with ⟨-, h⟩ | ⟨-, -, -, h⟩ | ⟨-, h⟩
  · exact ⟨s.out, s.eng.acc, s.changed, h⟩
  · obtain ⟨o, x, hf, -⟩ := sourceChanged_frame { s with source := m } a
    exact ⟨o, x, _, h.trans hf⟩
  · exact ⟨s.out, s.eng.acc, s.changed, h⟩

/-- A change that concerns no conversion. -/
theorem setSource_idle {s : State} {m : Memory} {a : Nat} (h : s.status.busy = false ∨ inBuffer s.regs a = false)
    : s.setSource m a = { s with source := m } := by
  rcases setSource_cases s m a with ⟨-, he⟩ | ⟨hb, hin, -, -⟩ | ⟨-, he⟩
  · exact he
  · rcases h with h | h
    · exact absurd (h.symm.trans hb) (by simp)
    · exact absurd (h.symm.trans hin) (by simp)
  · exact he

/-- Source memory after it. -/
theorem setSource_source (s : State) (m a) : (s.setSource m a).source = m := by
  obtain ⟨o, x, ch, hf⟩ := setSource_frame s m a
  rw [hf]

end Sys2Proof.Machine
end

