-- ==== Sys2Proof/Laws/Memory.lean ====
section
/-! SUPPORT. Source memory and host variables: what a read returns after a write or an erase, and that every operation
keeps the canonical form. -/

namespace Sys2Proof.Machine

variable {α : Type}

theorem Cells.read_write (m : List (Nat × α)) (a x : Nat) (v : α) :
    Cells.read (Cells.write m a v) x = if x = a then some v else Cells.read m x := by
  induction m with
  | nil => simp [Cells.write, Cells.read, eq_comm]
  | cons c m ih =>
    obtain ⟨k, w⟩ := c
    simp only [Cells.write]
    split_ifs with h1 h2 <;> simp only [Cells.read, ih] <;> split_ifs <;> first | rfl | omega

theorem Cells.rising_cons {k : Nat} {w : α} {m : List (Nat × α)} :
    Cells.rising ((k, w) :: m) ↔ (∀ c ∈ m, k < c.1) ∧ Cells.rising m := by
  simp [Cells.rising]

theorem Cells.read_eq_none {m : List (Nat × α)} {a : Nat} (h : ∀ c ∈ m, a < c.1) : Cells.read m a = none := by
  induction m with
  | nil => rfl
  | cons c m ih =>
    have hc := h c (by simp)
    simp only [Cells.read, if_neg (Nat.ne_of_gt hc)]
    exact ih fun d hd => h d (by simp [hd])

theorem Cells.read_erase {m : List (Nat × α)} (h : Cells.rising m) (a x : Nat) :
    Cells.read (Cells.erase m a) x = if x = a then none else Cells.read m x := by
  induction m with
  | nil => simp [Cells.erase, Cells.read]
  | cons c m ih =>
    obtain ⟨k, w⟩ := c
    rw [Cells.rising_cons] at h
    simp only [Cells.erase]
    split_ifs with h1 h2
    · subst h2; subst h1; exact Cells.read_eq_none h.1
    · simp only [Cells.read]; split_ifs <;> first | rfl | omega
    all_goals simp only [Cells.read, ih h.2]; split_ifs <;> first | rfl | omega

theorem Cells.mem_write {m : List (Nat × α)} {a : Nat} {v : α} {c : Nat × α} (h : c ∈ Cells.write m a v) :
    c = (a, v) ∨ c ∈ m := by
  induction m with
  | nil => simpa [Cells.write] using h
  | cons d m ih =>
    obtain ⟨k, w⟩ := d
    simp only [Cells.write] at h
    split_ifs at h <;> simp only [List.mem_cons] at h ⊢ <;> tauto

theorem Cells.mem_erase {m : List (Nat × α)} {a : Nat} {c : Nat × α} (h : c ∈ Cells.erase m a) : c ∈ m := by
  induction m with
  | nil => simp [Cells.erase] at h
  | cons d m ih =>
    obtain ⟨k, w⟩ := d
    simp only [Cells.erase] at h
    split_ifs at h <;> simp only [List.mem_cons] at h ⊢ <;> tauto

/-- Writing keeps the keys rising. -/
theorem Cells.rising_write {m : List (Nat × α)} (h : Cells.rising m) (a : Nat) (v : α) :
    Cells.rising (Cells.write m a v) := by
  induction m with
  | nil => simp [Cells.write, Cells.rising]
  | cons c m ih =>
    obtain ⟨k, w⟩ := c
    rw [Cells.rising_cons] at h
    simp only [Cells.write]
    split_ifs with h1 h2
    · refine Cells.rising_cons.2 ⟨fun d hd => ?_, ih h.2⟩
      rcases Cells.mem_write hd with rfl | hd
      exacts [h1, h.1 d hd]
    · subst h2; exact Cells.rising_cons.2 h
    · refine Cells.rising_cons.2 ⟨fun d hd => ?_, Cells.rising_cons.2 h⟩
      rcases List.mem_cons.1 hd with rfl | hd
      · show a < k; omega
      · have := h.1 d hd; omega

/-- Erasing keeps the keys rising. -/
theorem Cells.rising_erase {m : List (Nat × α)} (h : Cells.rising m) (a : Nat) : Cells.rising (Cells.erase m a) := by
  induction m with
  | nil => simp [Cells.erase, Cells.rising]
  | cons c m ih =>
    obtain ⟨k, w⟩ := c
    rw [Cells.rising_cons] at h
    simp only [Cells.erase]
    split_ifs
    · exact h.2
    · exact Cells.rising_cons.2 ⟨fun d hd => h.1 d (Cells.mem_erase hd), ih h.2⟩

/-- The platform's write keeps the canonical form. -/
theorem Memory.wf_write {m : Memory} (h : m.wf) (a : BitVec 32) (b : Byte) : (m.write a b).wf := by
  refine ⟨Cells.rising_write h.1 _ _, fun c hc => ?_⟩
  rcases Cells.mem_write hc with rfl | hc
  exacts [a.isLt, h.2 c hc]

/-- Ceasing to back a byte keeps the canonical form. -/
theorem Memory.wf_unback {m : Memory} (h : m.wf) (a : BitVec 32) : (m.unback a).wf :=
  ⟨Cells.rising_erase h.1 _, fun c hc => h.2 c (Cells.mem_erase hc)⟩

/-- Placing bytes keeps the canonical form. -/
theorem Memory.wf_place {m : Memory} (h : m.wf) (a : BitVec 32) (bs : List Byte) : (m.place a bs).wf := by
  induction bs generalizing m a with
  | nil => exact h
  | cons b bs ih => exact ih (Memory.wf_write h a b) (a + 1)

@[simp] theorem Memory.wf_nil : Memory.wf [] := by simp [Memory.wf, Cells.rising]

/-- Source memory right after reset is in canonical form. -/
theorem State.reset_source_wf : Memory.wf State.reset.source := Memory.wf_nil

theorem Memory.read_write (m : Memory) (a : BitVec 32) (b : Byte) (x : Nat) :
    (m.write a b).read x = if x = a.toNat then some b else m.read x := by
  have := a.isLt
  simp only [Memory.read, Memory.write, Cells.read_write]
  split_ifs <;> first | rfl | omega

theorem Memory.read_unback {m : Memory} (h : m.wf) (a : BitVec 32) (x : Nat) :
    (m.unback a).read x = if x = a.toNat then none else m.read x := by
  simp only [Memory.read, Memory.unback, Cells.read_erase h.1]
  split_ifs <;> rfl

/-- In canonical form, equal reads mean equal memories. -/
theorem Cells.ext_of_read {m n : List (Nat × α)} (hm : Cells.rising m) (hn : Cells.rising n)
    (h : ∀ a, Cells.read m a = Cells.read n a) : m = n := by
  induction m generalizing n with
  | nil =>
    cases n with
    | nil => rfl
    | cons c n => have := h c.1; simp [Cells.read] at this
  | cons c m ih =>
    obtain ⟨k, v⟩ := c
    cases n with
    | nil => have := h k; simp [Cells.read] at this
    | cons d n =>
      obtain ⟨l, w⟩ := d
      rw [Cells.rising_cons] at hm hn
      have hkl : k = l := by
        rcases Nat.lt_trichotomy k l with hlt | heq | hgt
        · have h1 := h k
          rw [show Cells.read ((l, w) :: n) k = none from Cells.read_eq_none fun c hc => by
            rcases List.mem_cons.1 hc with rfl | hc
            exacts [hlt, Nat.lt_trans hlt (hn.1 c hc)]] at h1
          simp [Cells.read] at h1
        · exact heq
        · have h1 := h l
          rw [show Cells.read ((k, v) :: m) l = none from Cells.read_eq_none fun c hc => by
            rcases List.mem_cons.1 hc with rfl | hc
            exacts [hgt, Nat.lt_trans hgt (hm.1 c hc)]] at h1
          simp [Cells.read] at h1
      subst hkl
      have hv : v = w := by simpa [Cells.read] using h k
      subst hv
      refine congrArg _ (ih hm.2 hn.2 fun a => ?_)
      by_cases ha : k = a
      · subst ha; rw [Cells.read_eq_none hm.1, Cells.read_eq_none hn.1]
      · simpa [Cells.read, ha] using h a

end Sys2Proof.Machine
end

