-- ==== Sys2Proof/Laws/Step.lean ====
section
/-! SUPPORT. What a host's turn adds around an instruction, and what one step and a run of steps are. -/

namespace Sys2Proof.Machine

open Sys2Proof

/-- Where `andThen` goes on. -/
theorem andThen_next {o : Host.Outcome State Fault Refusal} {f t} (h : andThen o f = .next t) : ∃ s, o = .next s ∧
    t = f s := by
  cases o <;> simp [andThen] at h ⊢; exact h.symm

/-- A step that is a host's turn. -/
theorem step_host (s : State) (k : Nat) (h : s.nextTurn = .host k) : step s = hostTurn s.dropTurn k := by
  unfold step; rw [h]; rfl

/-- A step that is the engine's turn. -/
theorem step_engine (s : State) (h : s.nextTurn = .engine) : step s = engineTurn s.dropTurn := by
  unfold step; rw [h]; rfl

/-- The plan does not change what a host fetches. -/
@[simp] theorem fetch_dropTurn (s : State) (k) : s.dropTurn.fetch k = s.fetch k := rfl

/-- With no turn planned, none is dropped. -/
theorem dropTurn_nil {s : State} (h : s.turns = []) : s.dropTurn = s := by
  cases s; simp_all [State.dropTurn]

/-- A host's turn with a transaction that decodes. -/
theorem hostTurn_bus {s : State} {k t d i} (hf : s.fetch k = some (.bus t d)) (hd : decodeBus t = .ok i) :
    hostTurn s k = andThen (exec i s) (·.retire k i d) := by
  unfold hostTurn; rw [hf]; simp only [hostTransaction, hd]

/-- A step with a transaction that decodes. -/
theorem step_bus {s : State} {k x d i} (hn : s.nextTurn = .host k) (hf : s.fetch k = some (.bus x d))
    (hd : decodeBus x = .ok i) :
    step s = andThen (exec i s.dropTurn) (·.retire k i d) := (step_host s k hn).trans
        (hostTurn_bus (s := s.dropTurn) hf hd)

/-- Every next state of a host's turn. -/
theorem hostTurn_cases {s t : State} {k} (h : hostTurn s k = .next t) :
    (s.fetch k = none ∧ t = s) ∨
    (∃ b l, t = s.branch k b l) ∨
    (∃ x d i u, s.fetch k = some (.bus x d) ∧ decodeBus x = .ok i ∧ exec i s = .next u ∧ t = u.retire k i d) := by
  unfold hostTurn at h
  split at h
  · rename_i hf; injection h with h; exact .inl ⟨hf, h.symm⟩
  · rename_i x d hf
    unfold hostTransaction at h
    split at h
    · cases h
    · rename_i i hd
      obtain ⟨u, hu, rfl⟩ := andThen_next h
      exact .inr (.inr ⟨x, d, i, u, hf, hd, hu, rfl⟩)
  · injection h with h; exact .inr (.inl ⟨_, _, h.symm⟩)
  · injection h with h; exact .inr (.inl ⟨_, _, h.symm⟩)

/-- Around an instruction only the hosts, what they observed and the tick change. -/
theorem retire_frame (s : State) (k i d) : ∃ o h n, s.retire k i d =
    { s with observed := o, hosts := h, tick := n } := by
  unfold State.retire
  split_ifs
  · exact ⟨_, _, s.tick, rfl⟩
  · exact ⟨s.observed, _, _, rfl⟩

/-- Changing an entry that is there. -/
theorem modify_of_getElem? {α} {l : List α} {k : Nat} {a : α} (h : l[k]? = some a) (f : α → α) :
    l.modify k f = l.set k (f a) := by
  apply List.ext_getElem?
  intro j
  simp only [List.getElem?_modify, List.getElem?_set]
  by_cases hj : k = j
  · subst hj
    have := (List.getElem?_eq_some_iff.1 h).1
    have e := (List.getElem?_eq_some_iff.1 h).2
    simp [this, e]
  · simp [hj]

/-- A host variable after an assignment. -/
theorem var_setVar (h : HostAgent) (r q : Nat) (w : Word) (hw : h.varsWf) :
    (h.setVar r w).var q = if q = r then w else h.var q := by
  unfold HostAgent.setVar HostAgent.var
  split_ifs with h1 h2 h2
  · subst h1; simp [Cells.read_erase hw.1, h2]
  · simp [Cells.read_erase hw.1, h2]
  · simp [Cells.read_write, h2]
  · simp [Cells.read_write, h2]

/-- Assignments keep the canonical form of the variables. -/
theorem varsWf_setVar {h : HostAgent} (hw : h.varsWf) (r : Nat) (w : Word) : (h.setVar r w).varsWf := by
  unfold HostAgent.setVar
  split_ifs with h0
  · exact ⟨Cells.rising_erase hw.1 _, fun c hc => hw.2 c (Cells.mem_erase hc)⟩
  · refine ⟨Cells.rising_write hw.1 _ _, fun c hc => ?_⟩
    rcases Cells.mem_write hc with rfl | hc
    exacts [h0, hw.2 c hc]

/-- The entries of a list with one entry changed. -/
theorem mem_modify {α} {l : List α} {k : Nat} {f : α → α} {a : α} (h : a ∈ l.modify k f) : a ∈ l ∨ ∃ b ∈ l,
    a = f b := by
  obtain ⟨j, hj⟩ := List.mem_iff_getElem?.1 h
  rw [List.getElem?_modify] at hj
  cases hl : l[j]? with
  | none => simp [hl] at hj
  | some b =>
    simp only [hl, Option.map_eq_map, Option.map_some, Option.some.injEq] at hj
    have hb := List.mem_of_getElem? hl
    split_ifs at hj
    · exact .inr ⟨b, hb, hj.symm⟩
    · exact .inl (by rw [← hj]; exact hb)

/-- A change of one host that keeps the canonical form keeps it for all. -/
theorem hosts_modify {l : List HostAgent} (h : ∀ a ∈ l, a.varsWf) (k : Nat) {f : HostAgent → HostAgent} (hf : ∀ a,
    a.varsWf → (f a).varsWf) :
    ∀ a ∈ l.modify k f, a.varsWf := by
  intro a ha
  rcases mem_modify ha with ha | ⟨b, hb, rfl⟩
  exacts [h a ha, hf b (h b hb)]

/-- Around an instruction the hosts keep the canonical form. -/
theorem hosts_retire {s : State} (h : ∀ a ∈ s.hosts, a.varsWf) (k i d) : ∀ a ∈ (s.retire k i d).hosts, a.varsWf := by
  unfold State.retire
  split_ifs
  · refine hosts_modify (hosts_modify h k ?_) k (fun a ha => ha)
    intro a ha
    cases d
    · exact ha
    · exact varsWf_setVar ha _ _
  · exact hosts_modify h k (fun a ha => ha)

/-- A branch keeps the canonical form. -/
theorem hosts_branch {s : State} (h : ∀ a ∈ s.hosts, a.varsWf) (k b l) : ∀ a ∈ (s.branch k b l).hosts, a.varsWf := by
  refine hosts_modify h k ?_
  intro a ha
  split_ifs <;> exact ha

/-- A run of n + 1 steps ends with a step. -/
theorem run_succ_right (M : Host.Core) (n : Nat) (s : M.State) :
    M.run (n + 1) s = match M.run n s with | .next u => M.step u | .fault r => .fault r | .refused r => .refused r
        := by
  induction n generalizing s with
  | zero => simp only [Host.Core.run]; cases M.step s <;> rfl
  | succ n ih =>
    rw [Host.Core.run]
    cases h : M.step s with
    | next u => simp only; rw [ih u, Host.Core.run, h]
    | fault r => simp only [Host.Core.run, h]
    | refused r => simp only [Host.Core.run, h]

/-- The same for this machine, where the first n steps answer a next state. -/
theorem core_run_succ {n : Nat} {s u : State} (h : Sys2Proof.core.run n s = .next u) : Sys2Proof.core.run (n + 1)
    s = step u :=
  (run_succ_right Sys2Proof.core n s).trans (by rw [show Sys2Proof.core.run n s = .next u from h]; rfl)

/-- The start state that a program's `mem` lines give keeps the canonical form. -/
theorem wf_startSource {m : Memory} (h : m.wf) (prog : List AsmLine) : (startSource m prog).wf := by
  induction prog generalizing m with
  | nil => exact h
  | cons line rest ih => cases line <;> first | exact ih h | exact ih (Memory.wf_place h _ _)

end Sys2Proof.Machine
end

