-- ==== Sys2Proof/Laws/Engine.lean ====
section
/-! SUPPORT. ENGINE_STEP: its fetch, its whole effect from the invariant's hidden state,
    and what is packed after it. -/

namespace Sys2Proof.Machine

open Sys2Proof

/-- EmitNow where NB is PIX mod 8 (R126). -/
theorem emitNow_iff {i : Nat} (h : i < 8192) : emitNow (i % 8 + 1) (pixelX i) i = decide (i % 8 = 7) := by
  unfold emitNow pixelX
  simp only [dstW, nPix]
  rw [Bool.eq_iff_iff]
  simp
  omega

/-- EmitNow in a conversion. -/
theorem emitNow_wf {s : State} (he : s.eng.wf true) :
    emitNow (s.eng.nb + 1) (pixelX s.eng.pix) s.eng.pix = decide (s.eng.pix % 8 = 7) := by
  obtain ⟨h1, h2, h3⟩ := he.1 rfl
  rw [h2, emitNow_iff h1]

/-- The whole effect of one engine step after its fetch. -/
theorem pixelDone_eq {s : State} (he : s.eng.wf true) (c) :
    s.pixelDone c =
    let acc := s.eng.acc ||| placeBit (pixelBit s.params.avgMode s.regs.threshold c) (s.eng.pix % 8)
    { s with
      out := if s.eng.pix % 8 = 7 then s.out.setIfInBounds (s.eng.pix / 8) acc else s.out
      eng :=
        { pix := if s.eng.pix = 8191 then 0 else s.eng.pix + 1
          acc := if s.eng.pix % 8 = 7 then 0 else acc
          nb := if s.eng.pix % 8 = 7 then 0 else s.eng.pix % 8 + 1
          oidx := if s.eng.pix % 8 = 7 then s.eng.pix / 8 + 1 else s.eng.pix / 8 }
      status := if s.eng.pix = 8191 then s.status.finished else s.status } := by
  obtain ⟨h1, h2, h3⟩ := he.1 rfl
  unfold State.pixelDone State.packStep State.nextPixel
  rw [emitNow_wf he]
  simp only [decide_eq_true_eq, nPix] at *
  by_cases h7 : s.eng.pix % 8 = 7
  · by_cases hl : s.eng.pix = 8191
    · simp [hl, h2, h3, State.emit]
    · simp [h7, hl, h2, h3, State.emit]
  · have hl : s.eng.pix ≠ 8191 := by omega
    simp [h7, hl, h2, h3, State.accumulate]

/-- Where the engine step is enabled. -/
theorem engineEnabled_iff {s : State} : s.engineEnabled = true ↔ s.status.busy = true ∧ s.stuck = false := by
  simp [State.engineEnabled]

/-- Where it is not. -/
theorem engineEnabled_eq_false {s : State} : s.engineEnabled = false ↔ s.status.busy = false ∨ s.stuck = true := by
  cases hb : s.status.busy <;> cases hs : s.stuck <;> simp [State.engineEnabled, hb, hs]

/-- An engine turn that passes. -/
theorem engineTurn_pass {s : State} (h : s.status.busy = false ∨ s.stuck = true) : engineTurn s = .next s := by
  unfold engineTurn; rw [engineEnabled_eq_false.2 h]; rfl

/-- An engine turn that takes its step. -/
theorem engineTurn_step {s : State} (hb : s.status.busy = true) (hs : s.stuck = false) {c}
    (hc : fetchResized s s.eng.pix = some c) : engineTurn s = .next (s.pixelDone c).nextDraw := by
  unfold engineTurn; rw [if_pos (engineEnabled_iff.2 ⟨hb, hs⟩), hc]

/-- An engine turn in which a read has no answer. -/
theorem engineTurn_getStuck {s : State} (hb : s.status.busy = true) (hs : s.stuck = false)
    (hc : fetchResized s s.eng.pix = none) : engineTurn s = .next s.getStuck := by
  unfold engineTurn; rw [if_pos (engineEnabled_iff.2 ⟨hb, hs⟩), hc]

/-- Everything the engine's turn can do: pass, get stuck, or process its pixel. -/
theorem engineTurn_cases (s : State) :
    ((s.status.busy = false ∨ s.stuck = true) ∧ engineTurn s = .next s) ∨
    (s.status.busy = true ∧ s.stuck = false ∧ fetchResized s s.eng.pix = none ∧ engineTurn s = .next s.getStuck) ∨
    (s.status.busy = true ∧ s.stuck = false ∧ ∃ c, fetchResized s s.eng.pix = some c ∧
      engineTurn s = .next (s.pixelDone c).nextDraw) := by
  cases he : s.engineEnabled
  · exact .inl ⟨engineEnabled_eq_false.1 he, engineTurn_pass (engineEnabled_eq_false.1 he)⟩
  · obtain ⟨hb, hs⟩ := engineEnabled_iff.1 he
    cases hc : fetchResized s s.eng.pix with
    | none => exact .inr (.inl ⟨hb, hs, rfl, engineTurn_getStuck hb hs hc⟩)
    | some c => exact .inr (.inr ⟨hb, hs, c, rfl, engineTurn_step hb hs hc⟩)

/-- Every next state of the engine's turn. -/
theorem engineTurn_next {s t : State} (h : engineTurn s = .next t) :
    ((s.status.busy = false ∨ s.stuck = true) ∧ t = s) ∨
    (s.status.busy = true ∧ s.stuck = false ∧ fetchResized s s.eng.pix = none ∧ t = s.getStuck) ∨
    (s.status.busy = true ∧ s.stuck = false ∧ ∃ c, fetchResized s s.eng.pix = some c ∧
      t = (s.pixelDone c).nextDraw) := by
  rcases engineTurn_cases s with ⟨h1, he⟩ | ⟨h1, h2, h3, he⟩ | ⟨h1, h2, c, h3, he⟩ <;> rw [he] at h <;>
    injection h with h
  · exact .inl ⟨h1, h.symm⟩
  · exact .inr (.inl ⟨h1, h2, h3, h.symm⟩)
  · exact .inr (.inr ⟨h1, h2, c, h3, h.symm⟩)

/-- An engine turn with BUSY = 1 that leaves the engine not stuck has processed its pixel. -/
theorem engineTurn_pixel {s t : State} (h : engineTurn s = .next t) (hb : s.status.busy = true)
    (ht : t.stuck = false) : ∃ c, fetchResized s s.eng.pix = some c ∧ t = (s.pixelDone c).nextDraw := by
  rcases engineTurn_next h with ⟨hp | hp, rfl⟩ | ⟨-, -, -, rfl⟩ | ⟨-, -, c, hc, rfl⟩
  · exact absurd (hb.symm.trans hp) (by simp)
  · exact absurd (ht.symm.trans hp) (by simp)
  · exact absurd (show true = false from ht) (by simp)
  · exact ⟨c, hc, rfl⟩

/-- A read has no answer exactly where no byte is backed. -/
theorem sourceRead_none {s i a} : sourceRead s i a = none ↔ s.source.read a = none := by
  unfold sourceRead; split
  · simp_all
  · rename_i b hb; rw [hb]; split_ifs <;> simp

/-- A fetch has no answer exactly where one of three bytes is not backed. -/
theorem fetchResized_none {s i} : fetchResized s i = none ↔ ∃ c, c ≤ 2 ∧ s.source.read (s.pixelAddr i + c)
    = none := by
  have : (∃ c, c ≤ 2 ∧ s.source.read (s.pixelAddr i + c) = none) ↔ s.source.read (s.pixelAddr i)
      = none ∨ s.source.read (s.pixelAddr i + 1) = none ∨ s.source.read (s.pixelAddr i + 2) = none := by
    constructor
    · rintro ⟨c, hc, h⟩
      interval_cases c
      exacts [.inl h, .inr (.inl h), .inr (.inr h)]
    · rintro (h | h | h)
      exacts [⟨0, by omega, h⟩, ⟨1, by omega, h⟩, ⟨2, by omega, h⟩]
  rw [this, ← sourceRead_none (i := i), ← sourceRead_none (i := i), ← sourceRead_none (i := i)]
  unfold fetchResized
  cases h1 : sourceRead s i (s.pixelAddr i) <;> cases h2 : sourceRead s i (s.pixelAddr i + 1) <;>
  cases h3 : sourceRead s i (s.pixelAddr i + 2) <;> simp

/-- A read of a backed byte has an answer, the byte where it did not change (R45, R59). -/
theorem sourceRead_backed {s : State} {i a b} (h : s.source.read a = some b) :
    ∃ b', sourceRead s i a = some b' ∧ (a ∉ s.changed → b' = b) := by
  unfold sourceRead
  rw [h]
  by_cases ha : a ∈ s.changed
  · exact ⟨_, if_pos ha, fun h => absurd ha h⟩
  · exact ⟨b, if_neg ha, fun _ => rfl⟩

/-- A fetch of three backed bytes: those that did not change are as they are. -/
theorem fetchResized_backed {s : State} {i r g b} (hr : s.source.read (s.pixelAddr i) = some r)
    (hg : s.source.read (s.pixelAddr i + 1) = some g) (hb : s.source.read (s.pixelAddr i + 2) = some b) :
    ∃ r' g' b', fetchResized s i = some (r', g', b') ∧ (s.pixelAddr i ∉ s.changed → r' = r) ∧
      (s.pixelAddr i + 1 ∉ s.changed → g' = g) ∧ (s.pixelAddr i + 2 ∉ s.changed → b' = b) := by
  obtain ⟨r', h1, hr'⟩ := sourceRead_backed (i := i) hr
  obtain ⟨g', h2, hg'⟩ := sourceRead_backed (i := i) hg
  obtain ⟨b', h3, hb'⟩ := sourceRead_backed (i := i) hb
  exact ⟨r', g', b', by unfold fetchResized; rw [h1, h2, h3], hr', hg', hb'⟩

/-- With no byte changed, what is fetched is the image's pixel. -/
theorem fetchResized_clean {s : State} {i c} (hc : s.changed = []) (h : fetchResized s i = some c) :
    s.destBit (pixelX i) (pixelY i) = pixelBit s.params.avgMode s.regs.threshold c := by
  have hr : ∀ a, sourceRead s i a = s.source.read a := by
    intro a; unfold sourceRead; rw [hc]; cases s.source.read a <;> simp
  unfold fetchResized at h
  simp only [hr] at h
  split at h
  · cases h
  · rename_i r h1
    split at h
    · cases h
    · rename_i g h2
      split at h
      · cases h
      · rename_i b h3
        injection h with h
        subst h
        unfold State.destBit destBit State.image sourceByte
        unfold State.pixelAddr pixelAddr at h1 h2 h3
        simp only [srcAddr, Nat.add_zero] at *
        rw [h1, h2, h3]
        rfl

/-- Packing changes OUT and the hidden state alone. -/
theorem packStep_frame (s : State) (b : Bool) (x i : Nat) : ∃ o e, s.packStep b x i =
    { s with out := o, eng := e } := by
  unfold State.packStep
  split_ifs
  · exact ⟨_, _, rfl⟩
  · exact ⟨s.out, _, rfl⟩

/-- An engine step changes OUT, the hidden state and, the last one, STATUS. -/
theorem pixelDone_frame (s : State) (c) : ∃ o e st, s.pixelDone c = { s with out := o, eng := e, status := st } ∧
    (st = s.status ∨ (s.eng.pix = 8191 ∧ st = s.status.finished)) := by
  unfold State.pixelDone
  obtain ⟨o, e, h⟩ := packStep_frame s (pixelBit s.params.avgMode s.regs.threshold c) (pixelX s.eng.pix) s.eng.pix
  rw [h]
  unfold State.nextPixel
  split_ifs with hl
  · exact ⟨_, _, _, rfl, .inr ⟨hl, rfl⟩⟩
  · exact ⟨_, _, _, rfl, .inl rfl⟩

/-- OUT after an emit. -/
theorem outByte_set {s : State} {k j : Nat} {x : Byte} (hj : j < 1024) (hk : k < 1024) :
    ((s.out.setIfInBounds j x)[k]?.getD 0) = if k = j then x else outByte s k := by
  unfold outByte
  rw [Vector.getElem?_setIfInBounds]
  by_cases h : k = j
  · subst h; simp [hk]
  · simp [h, Ne.symm h]

/-- A pixel's bit in the accumulator. -/
theorem acc_placed {acc : Byte} {nb : Nat} (hnb : nb < 8) (hlow : ∀ j, j < 8 - nb → acc.getLsbD j = false)
    (bit : Bool) {q : Nat} (hq : q ≤ nb) :
    (acc ||| placeBit bit nb).getLsbD (7 - q) = if q = nb then bit else acc.getLsbD (7 - q) := by
  rw [BitVec.getLsbD_or, placeBit_getLsbD]
  by_cases h : q = nb
  · subst h; rw [hlow _ (by omega)]; simp
  · simp only [h, if_false]
    rw [show decide (7 - q = 7 - nb) = false by simp; omega]; simp

/-- The bits not filled. -/
theorem acc_placed_low {acc : Byte} {nb : Nat} (hnb : nb < 8) (hlow : ∀ j, j < 8 - nb → acc.getLsbD j = false)
    (bit : Bool) {j : Nat} (hj : j < 7 - nb) :
    (acc ||| placeBit bit nb).getLsbD j = false := by
  rw [BitVec.getLsbD_or, placeBit_getLsbD, hlow _ (by omega)]
  simp; intro; omega

/-- What is packed after an engine step. -/
theorem packedBit_pixelDone {s : State} (he : s.eng.wf true) (c) {i : Nat} (hi : i ≤ s.eng.pix) :
    (s.pixelDone c).packedBit i = if i = s.eng.pix then pixelBit s.params.avgMode s.regs.threshold c else
        s.packedBit i := by
  obtain ⟨h1, h2, h3⟩ := he.1 rfl
  have hlow := he.2.2
  rw [h2] at hlow
  simp only [nPix] at h1
  have hnb : s.eng.pix % 8 < 8 := by omega
  rw [pixelDone_eq he]
  unfold State.packedBit
  simp only [outByte]
  have key : ∀ q, q ≤ s.eng.pix % 8 → _ := fun q hq => acc_placed hnb hlow (pixelBit s.params.avgMode
      s.regs.threshold c) hq
  by_cases h7 : s.eng.pix % 8 = 7
  · simp only [if_pos h7]
    rw [if_pos (by omega), outByte_set (by omega) (by omega)]
    by_cases hk : i / 8 = s.eng.pix / 8
    · rw [if_pos hk, key _ (by omega), h3, if_neg (show ¬ i / 8 < s.eng.pix / 8 by omega)]
      by_cases hip : i = s.eng.pix
      · rw [if_pos (by omega), if_pos hip]
      · rw [if_neg (by omega), if_neg hip]
    · rw [if_neg hk, if_neg (show ¬ i = s.eng.pix by intro h; exact hk (by rw [h])), h3, if_pos (by omega)]
      rfl
  · simp only [if_neg h7, h3]
    by_cases hk : i / 8 < s.eng.pix / 8
    · rw [if_pos hk, if_neg (show ¬ i = s.eng.pix by intro h; rw [h] at hk; omega)]
      simp only [hk, if_true]
    · rw [if_neg hk, key _ (by omega)]
      simp only [hk, if_false]
      by_cases hip : i = s.eng.pix
      · rw [if_pos (by omega), if_pos hip]
      · rw [if_neg (by omega), if_neg hip]

/-- The hidden state after an engine step. -/
theorem engine_wf_pixelDone {s : State} (he : s.eng.wf true) (c)
    : (s.pixelDone c).eng.wf (decide (s.eng.pix ≠ 8191)) := by
  obtain ⟨h1, h2, h3⟩ := he.1 rfl
  have hlow := he.2.2
  rw [h2] at hlow
  simp only [nPix] at h1
  rw [pixelDone_eq he]
  refine ⟨?_, ?_, ?_⟩
  · intro h
    have h : s.eng.pix ≠ 8191 := by simpa using h
    simp only [if_neg h, nPix]
    refine ⟨by omega, ?_, ?_⟩ <;> split_ifs <;> omega
  · intro h
    have h : s.eng.pix = 8191 := by simpa using h
    simp [h]
  · simp only
    split_ifs with h7
    · intro j _; simp
    · intro j hj; exact acc_placed_low (by omega) hlow _ (by omega)

/-- With no byte changed, every pixel up to this one is packed right. -/
theorem packedBit_done {s : State} (he : s.eng.wf true) (hp : s.packedRight) (hb : s.status.busy = true)
    (hch : s.changed = []) {c}
    (hc : fetchResized s s.eng.pix = some c) {i : Nat} (hi : i ≤ s.eng.pix) :
    (s.pixelDone c).packedBit i = s.destBit (pixelX i) (pixelY i) := by
  rw [packedBit_pixelDone he c hi]
  split_ifs with hie
  · rw [hie, fetchResized_clean hch hc]
  · exact hp hb hch i (by omega)

/-- A byte of OUT whose eight bits are right is the result's. -/
theorem byte_eq_convert {s t : State} {k : Nat} (h : ∀ q, q < 8 → (outByte t k).getLsbD (7 - q)
    = s.destBit (pixelX (8 * k + q)) (pixelY (8 * k + q))) :
    (outByte t k).toNat = s.convert k := by
  apply Nat.eq_of_testBit_eq
  intro j
  by_cases hj : j < 8
  · have := h (7 - j) (by omega)
    rw [show 7 - (7 - j) = j by omega] at this
    unfold State.convert
    have e := convertByte_testBit s.params s.image s.regs.srcWidth.toNat s.regs.srcHeight.toNat s.regs.threshold k
        (j := 7 - j) (by omega)
    rw [show 7 - (7 - j) = j by omega] at e
    rw [e]
    show (outByte t k).getLsbD j = _
    rw [this]
    unfold State.destBit pixelX pixelY
    congr 1 <;> omega
  · rw [Nat.testBit_lt_two_pow, Nat.testBit_lt_two_pow]
    · exact Nat.lt_of_lt_of_le (convertByte_lt _ _ _ _ _ _) (Nat.pow_le_pow_right (n := 2) (by omega)
          (show 8 ≤ j by omega))
    · exact Nat.lt_of_lt_of_le (outByte t k).isLt (Nat.pow_le_pow_right (n := 2) (by omega) (show 8 ≤ j by omega))

/-- After the last engine step OUT is the result. -/
theorem out_of_last {s : State} (he : s.eng.wf true) (hp : s.packedRight) (hb : s.status.busy = true)
    (hch : s.changed = []) {c}
    (hc : fetchResized s s.eng.pix = some c) (hl : s.eng.pix = 8191) {k : Nat} (hk : k < 1024) :
    (outByte (s.pixelDone c) k).toNat = s.convert k := by
  refine byte_eq_convert fun q hq => ?_
  rw [← packedBit_done he hp hb hch hc (by omega)]
  have ho : (s.pixelDone c).eng.oidx = 1024 := by rw [pixelDone_eq he]; simp [hl]
  unfold State.packedBit
  rw [ho, if_pos (by omega), show (8 * k + q) / 8 = k by omega, show (8 * k + q) % 8 = q by omega]

/-- With a backed buffer, a fetch of a conversion has an answer (R106). -/
theorem fetchResized_of_backed {s : State} (he : s.eng.wf true) (hv : validShape s.regs = true) (hB : s.backed) :
    ∃ c, fetchResized s s.eng.pix = some c := by
  refine Option.ne_none_iff_exists'.1 fun hn => ?_
  obtain ⟨c, hc, hn⟩ := fetchResized_none.1 hn
  have := hB _ (pixelAddr_inBuffer hv (he.1 rfl).1 hc)
  rw [hn] at this; cases this

/-- The engine's last turn of a conversion, with a backed buffer. -/
theorem engineTurn_last {s : State} (he : s.eng.wf true) (hb : s.status.busy = true) (hk : s.stuck = false)
    (hv : validShape s.regs = true) (hB : s.backed)
    (hp : s.eng.pix = 8191) : ∃ o e, engineTurn s = .next
        { s with out := o, eng := e, status := s.status.finished, tick := s.tick + 1 } := by
  obtain ⟨c, hc⟩ := fetchResized_of_backed he hv hB
  obtain ⟨o, e, st, hf, -⟩ := pixelDone_frame s c
  have hs : (s.pixelDone c).status = s.status.finished := by rw [pixelDone_eq he]; simp [hp]
  rw [hf] at hs
  refine ⟨o, e, ?_⟩
  rw [engineTurn_step hb hk hc, hf, ← hs]; rfl

end Sys2Proof.Machine
end

