-- ==== Sys2Proof/Laws/Inv.lean ====
section
/-! SUPPORT. The invariant and what is packed,
    operation by operation; every next state of a step; a conversion left alone. -/

namespace Sys2Proof.Machine

open Sys2Proof

/-- The invariant does not look at the rest of the state. -/
theorem Inv_congr {s t : State} (h : s.Inv) (h1 : t.status = s.status) (h2 : t.regs = s.regs) (h3 : t.eng = s.eng)
    (h4 : t.source = s.source)
  (h5 : t.changed = s.changed) (h6 : ∀ a ∈ t.hosts, a.varsWf) (h7 : t.stuck = s.stuck) : t.Inv := by
  refine ⟨?_, ?_, ?_, ?_, ?_, ?_, h6⟩
  · rw [h1]; exact h.status
  · rw [h1, h3]; exact h.engine
  · rw [h1, h7]; exact h.stuck
  · rw [h1, h2]; exact h.shape
  · rw [h4]; exact h.memory
  · rw [h1, h2, h5]; exact h.changed

/-- The plan is no part of it. -/
theorem Inv_dropTurn {s : State} (hI : s.Inv) : s.dropTurn.Inv := ⟨hI.status, hI.engine, hI.stuck, hI.shape, hI.memory,
    hI.changed, hI.hosts⟩

/-- Every instruction keeps it. -/
theorem Inv_exec {i : Instr} {s t : State} (h : exec i s = .next t) (hI : s.Inv) : t.Inv := by
  rcases exec_cases h with ⟨-, h⟩ | ⟨-, rfl⟩ | ⟨-, hb, rfl⟩ | ⟨-, hb, r, rfl⟩ | ⟨-, hb, -, rfl⟩ | ⟨-, hb, -, rfl⟩
  · rw [h]; exact Inv_congr hI rfl rfl rfl rfl rfl hI.hosts rfl
  · exact hI
  · exact ⟨hI.status, hI.engine, hI.stuck, hI.shape, hI.memory, hI.changed, hI.hosts⟩
  · exact ⟨hI.status, hI.engine, hI.stuck, fun h => absurd (hb.symm.trans h) (by simp), hI.memory, ⟨hI.changed.1,
        fun h => absurd (hb.symm.trans h) (by simp)⟩, hI.hosts⟩
  · unfold convertEffect
    split_ifs with hv
    · refine ⟨⟨fun _ => ⟨rfl, rfl⟩, fun h => (by cases h), fun _ => rfl⟩, ⟨fun _ => ⟨Nat.zero_lt_succ _, rfl,
          (Nat.zero_div 8).symm⟩, fun h => (by cases h), fun _ _ => (by simp [State.startConversion,
          Engine.start])⟩, fun _ => rfl, fun _ => hv, hI.memory, ⟨List.nodup_nil, fun _ a ha => (by cases ha)⟩, hI.hosts⟩
    · exact ⟨⟨fun h => absurd (hb.symm.trans h) (by simp), fun _ => ⟨rfl, .inl rfl⟩, fun h => (by cases h)⟩,
          hI.engine, hI.stuck, fun h => absurd (hb.symm.trans h) (by simp), hI.memory, ⟨hI.changed.1, fun h => absurd
          (hb.symm.trans h) (by simp)⟩, hI.hosts⟩
  · exact ⟨⟨fun h => absurd (hb.symm.trans h) (by simp), fun _ => ⟨rfl, .inr rfl⟩, fun h => (by cases h)⟩,
        hI.engine, hI.stuck, fun h => absurd (hb.symm.trans h) (by simp), hI.memory, ⟨hI.changed.1, fun h => absurd
        (hb.symm.trans h) (by simp)⟩, hI.hosts⟩

/-- A host's turn keeps it. -/
theorem Inv_hostTurn {s t : State} {k} (h : hostTurn s k = .next t) (hI : s.Inv) : t.Inv := by
  rcases hostTurn_cases h with ⟨-, rfl⟩ | ⟨b, l, rfl⟩ | ⟨x, d, i, u, -, -, hu, rfl⟩
  · exact hI
  · exact Inv_congr hI rfl rfl rfl rfl rfl (hosts_branch hI.hosts _ _ _) rfl
  · have hU := Inv_exec hu hI
    obtain ⟨o, hh, n, he⟩ := retire_frame u k i d
    refine Inv_congr hU ?_ ?_ ?_ ?_ ?_ (hosts_retire hU.hosts _ _ _) ?_ <;> rw [he]

/-- The engine's turn keeps it. -/
theorem Inv_engineTurn {s t : State} (h : engineTurn s = .next t) (hI : s.Inv) : t.Inv := by
  rcases engineTurn_next h with ⟨-, rfl⟩ | ⟨hb, -, -, rfl⟩ | ⟨hb, hk, c, -, rfl⟩
  · exact hI
  · exact ⟨hI.status, hI.engine, fun _ => hb, hI.shape, hI.memory, hI.changed, hI.hosts⟩
  · have he := hI.engine
    rw [hb] at he
    have hw := engine_wf_pixelDone he c
    obtain ⟨o, e, st, hf, hst⟩ := pixelDone_frame s c
    rw [hf] at hw ⊢
    have hp := (he.1 rfl).1
    have hs := hI.status
    rcases hst with rfl | ⟨hl, rfl⟩
    · by_cases hl : s.eng.pix = 8191
      · exfalso
        have : (s.pixelDone c).status = s.status.finished := by rw [pixelDone_eq he]; simp [hl]
        rw [hf] at this
        have := congrArg Status.busy this
        simp [Status.finished, hb] at this
      · refine ⟨hI.status, ?_, hI.stuck, hI.shape, hI.memory, hI.changed, hI.hosts⟩
        simp only [hl, ne_eq, not_false_eq_true, decide_true] at hw
        show e.wf s.status.busy
        rw [hb]; exact hw
    · refine ⟨?_, ?_, fun h => absurd (hk.symm.trans h) (by simp), fun h => (by cases h), hI.memory, ⟨hI.changed.1,
          fun h => (by cases h)⟩, hI.hosts⟩
      · obtain ⟨h1, h2, h3⟩ := hs
        refine ⟨fun h => (by cases h), fun h => ?_, h3⟩
        have := (h1 hb).2
        exact absurd (this.symm.trans h) (by simp)
      · simp only [hl, ne_eq, not_true_eq_false, decide_false] at hw
        exact hw

/-- The platform keeps it. -/
theorem Inv_setSource {s : State} {m : Memory} {a : Nat} (hI : s.Inv) (hm : m.wf) : (s.setSource m a).Inv := by
  rcases setSource_cases s m a with ⟨-, h⟩ | ⟨hb, hin, -, h⟩ | ⟨-, h⟩
  · rw [h]; exact ⟨hI.status, hI.engine, hI.stuck, hI.shape, hm, hI.changed, hI.hosts⟩
  · obtain ⟨o, x, hf, hx⟩ := sourceChanged_frame { s with source := m } a
    rw [h, hf]
    have he := hI.engine
    rw [hb] at he
    obtain ⟨h1, h2, h3⟩ := he.1 rfl
    refine ⟨hI.status, ?_, hI.stuck, hI.shape, hm, ?_, hI.hosts⟩
    · show Engine.wf _ s.status.busy
      rw [hb]
      refine ⟨he.1, fun h => (by cases h), ?_⟩
      rw [hx]
      exact redrawnPixels_low (by rw [h2]; exact Nat.mod_lt _ (by omega)) he.2.2 _ (Nat.le_refl _)
    · show (noteChanged s.changed a).Nodup ∧ (s.status.busy = true → ∀ b ∈ noteChanged s.changed a,
          inBuffer s.regs b = true)
      by_cases hmem : a ∈ s.changed
      · rw [noteChanged, if_pos hmem]; exact hI.changed
      · rw [noteChanged, if_neg hmem]
        refine ⟨List.nodup_cons.2 ⟨hmem, hI.changed.1⟩, fun h b hb' => ?_⟩
        rcases List.mem_cons.1 hb' with rfl | hb'
        exacts [hin, hI.changed.2 hb b hb']
  · rw [h]; exact ⟨hI.status, hI.engine, hI.stuck, hI.shape, hm, hI.changed, hI.hosts⟩

/-- Reset brings it about. -/
theorem Inv_reset_like {s : State} (hm : s.source.wf) (hh : ∀ a ∈ s.hosts, a.varsWf) : s.resetEngine.Inv := by
  refine ⟨⟨fun h => (by cases h), fun h => (by cases h), fun _ => rfl⟩, ⟨fun h => (by cases h), fun _ => ⟨rfl, rfl,
      .inl rfl⟩, fun j _ => (by simp [State.resetEngine, Engine.start])⟩, fun h => (by cases h), fun h => (by cases h), hm,
      ⟨List.nodup_nil, fun h => (by cases h)⟩, hh⟩

/-- What is packed right stays so where nothing it rests on changes. -/
theorem packedRight_congr {s t : State} (h : s.packedRight) (hI : s.Inv) (h1 : t.status.busy = s.status.busy)
    (h2 : t.params = s.params)
    (h3 : t.regs = s.regs) (h4 : t.eng = s.eng) (h5 : t.out = s.out) (h6 : t.changed = s.changed)
    (h7 : s.status.busy = true → ∀ a, inBuffer s.regs a = true → t.source.read a = s.source.read a)
        : t.packedRight := by
  intro hb hc i hi
  rw [h1] at hb
  rw [h6] at hc
  rw [h4] at hi
  have hpix : s.eng.pix < 8192 := (hI.engine.1 hb).1
  rw [destBit_congr h2 h3 (hI.shape hb) (h7 hb) (by omega), ← h hb hc i hi]
  unfold State.packedBit outByte
  rw [h4, h5]

/-- The platform keeps it. -/
theorem packedRight_setSource {s : State} {m : Memory} {a : Nat} (hI : s.Inv) (h : s.packedRight)
    (hm : ∀ x, x ≠ a → m.read x = s.source.read x) : (s.setSource m a).packedRight := by
  rcases setSource_cases s m a with ⟨hr, he⟩ | ⟨hb, hin, -, he⟩ | ⟨ho, he⟩
  · rw [he]
    refine packedRight_congr h hI rfl rfl rfl rfl rfl rfl fun _ x _ => ?_
    by_cases hx : x = a
    · subst hx; exact hr
    · exact hm x hx
  · rw [he]
    obtain ⟨o, x, hf, hx⟩ := sourceChanged_frame { s with source := m } a
    rw [hf]
    intro _ hc
    exact absurd hc (noteChanged_ne _ _)
  · rw [he]
    refine packedRight_congr h hI rfl rfl rfl rfl rfl rfl fun hb x hx => hm x ?_
    rintro rfl
    rcases ho with ho | ho
    · rw [hb] at ho; cases ho
    · rw [hx] at ho; cases ho

/-- Every instruction keeps it. -/
theorem packedRight_exec {i : Instr} {s t : State} (h : exec i s = .next t) (hI : s.Inv) (hp : s.packedRight)
    : t.packedRight := by
  rcases exec_cases h with ⟨-, h⟩ | ⟨-, rfl⟩ | ⟨-, hb, rfl⟩ | ⟨-, hb, r, rfl⟩ | ⟨-, hb, -, rfl⟩ | ⟨-, hb, -, rfl⟩
  · rw [h]; exact packedRight_congr hp hI rfl rfl rfl rfl rfl rfl fun _ _ _ => rfl
  · exact hp
  · exact packedRight_congr hp hI rfl rfl rfl rfl rfl rfl fun _ _ _ => rfl
  · exact fun h => absurd (hb.symm.trans h) (by simp)
  · unfold convertEffect
    split_ifs with hv
    · exact fun _ _ i hi => absurd hi (Nat.not_lt_zero _)
    · exact fun h => absurd (hb.symm.trans h) (by simp)
  · exact fun h => absurd (hb.symm.trans h) (by simp)

/-- The engine's turn keeps it. -/
theorem packedRight_engineTurn {s t : State} (h : engineTurn s = .next t) (hI : s.Inv) (hp : s.packedRight)
    : t.packedRight := by
  rcases engineTurn_next h with ⟨-, rfl⟩ | ⟨hb, -, -, rfl⟩ | ⟨hb, -, c, hc, rfl⟩
  · exact hp
  · exact packedRight_congr hp hI rfl rfl rfl rfl rfl rfl fun _ _ _ => rfl
  · have he := hI.engine
    rw [hb] at he
    intro hb' hch i hi
    obtain ⟨o, e, st, hf, hst⟩ := pixelDone_frame s c
    have hch' : s.changed = [] := by rw [hf] at hch; exact hch
    have hpix : (s.pixelDone c).eng.pix = s.eng.pix + 1 := by
      rw [pixelDone_eq he]
      have : s.eng.pix ≠ 8191 := by
        intro hl
        have : (s.pixelDone c).status = s.status.finished := by rw [pixelDone_eq he]; simp [hl]
        have hb' : (s.pixelDone c).status.busy = true := hb'
        rw [this] at hb'; cases hb'
      simp [this]
    have hi : i < (s.pixelDone c).eng.pix := hi
    rw [hpix] at hi
    have hd : (s.pixelDone c).nextDraw.destBit (pixelX i) (pixelY i) = s.destBit (pixelX i) (pixelY i) := by
      rw [hf]; rfl
    rw [hd]
    show (s.pixelDone c).packedBit i = _
    exact packedBit_done he hp hb hch' hc (by omega)

/-- A host's turn keeps it. -/
theorem packedRight_hostTurn {s t : State} {k} (h : hostTurn s k = .next t) (hI : s.Inv) (hp : s.packedRight)
    : t.packedRight := by
  rcases hostTurn_cases h with ⟨-, rfl⟩ | ⟨b, l, rfl⟩ | ⟨x, d, i, u, -, -, hu, rfl⟩
  · exact hp
  · exact packedRight_congr hp hI rfl rfl rfl rfl rfl rfl fun _ _ _ => rfl
  · obtain ⟨o, hh, n, he⟩ := retire_frame u k i d
    rw [he]
    exact packedRight_congr (packedRight_exec hu hI hp) (Inv_exec hu hI) rfl rfl rfl rfl rfl rfl fun _ _ _ => rfl

/-- Every next state of a step. -/
theorem step_cases {s t : State} (h : step s = .next t) :
    (∃ k, s.nextTurn = .host k ∧ ∃ h' o r n, t =
        { s with hosts := h', observed := o, readData := r, tick := n, turns := s.turns.tail }) ∨
    (∃ k x d i, s.nextTurn = .host k ∧ s.fetch k = some (.bus x d) ∧ decodeBus x = .ok i ∧ ∃ u h' o n, t =
        { u with hosts := h', observed := o, tick := n, turns := s.turns.tail } ∧
       ((i.isGated = true ∧ s.status.busy = true ∧ u = s.ignoreWrite) ∨
        (s.status.busy = false ∧ ∃ r, u = { s with regs := r }) ∨
        (s.status.busy = false ∧ i = .wrCmd 1 ∧ u = convertEffect s) ∨
        (s.status.busy = false ∧ (∃ w, w ≠ 0 ∧ i = .wrCmd w) ∧ u = cmdReservedEffect s))) ∨
    (s.nextTurn = .engine ∧ (s.status.busy = false ∨ s.stuck = true) ∧ t = s.dropTurn) ∨
    (s.nextTurn = .engine ∧ s.status.busy = true ∧ s.stuck = false ∧ fetchResized s s.eng.pix = none ∧
      t = s.dropTurn.getStuck) ∨
    (s.nextTurn = .engine ∧ s.status.busy = true ∧ s.stuck = false ∧ ∃ o e st, t =
        { s with out := o, eng := e, status := st, tick := s.tick + 1, turns := s.turns.tail } ∧
      (st = s.status ∨ (s.eng.pix = 8191 ∧ st = s.status.finished))) ∨
    (∃ a b, s.nextTurn = .platformWrite a b ∧ t = s.dropTurn.setSource (s.source.write a b) a.toNat) ∨
    (∃ a, s.nextTurn = .platformUnback a ∧ t = s.dropTurn.setSource (s.source.unback a) a.toNat) ∨
    (s.nextTurn = .reset ∧ t = s.dropTurn.resetEngine) := by
  unfold step at h
  cases hn : s.nextTurn with
  | host k =>
    rw [hn] at h
    rcases hostTurn_cases h with ⟨-, rfl⟩ | ⟨b, l, rfl⟩ | ⟨x, d, i, u, hf, hd, hu, rfl⟩
    · exact .inl ⟨k, rfl, s.hosts, s.observed, s.readData, s.tick, rfl⟩
    · exact .inl ⟨k, rfl, _, s.observed, s.readData, s.tick, rfl⟩
    · obtain ⟨o, hh, n, he⟩ := retire_frame u k i d
      rw [he]
      rcases exec_bus_cases hd hu with h | ⟨h1, h2, rfl⟩ | ⟨h1, r, rfl⟩ | ⟨h1, h2, rfl⟩ | ⟨h1, h2, rfl⟩
      · rw [h]; exact .inl ⟨k, rfl, hh, o, _, n, rfl⟩
      · exact .inr (.inl ⟨k, x, d, i, rfl, hf, hd, s.ignoreWrite, hh, o, n, rfl, .inl ⟨h1, h2, rfl⟩⟩)
      · exact .inr (.inl ⟨k, x, d, i, rfl, hf, hd, { s with regs := r }, hh, o, n, rfl, .inr (.inl ⟨h1, r, rfl⟩)⟩)
      · exact .inr (.inl ⟨k, x, d, i, rfl, hf, hd, convertEffect s, hh, o, n,
            by rw [convertEffect_dropTurn]; rcases convertEffect_cases s with ⟨hv, hc⟩ | ⟨hv, hc⟩ <;> rw [hc]
            <;> rfl, .inr (.inr (.inl ⟨h1, h2, rfl⟩))⟩)
      · exact .inr (.inl ⟨k, x, d, i, rfl, hf, hd, cmdReservedEffect s, hh, o, n, rfl, .inr (.inr (.inr ⟨h1, h2,
            rfl⟩))⟩)
  | engine =>
    rw [hn] at h
    rcases engineTurn_next h with ⟨hb, rfl⟩ | ⟨hb, hs, hc, rfl⟩ | ⟨hb, hs, c, -, rfl⟩
    · exact .inr (.inr (.inl ⟨rfl, hb, rfl⟩))
    · exact .inr (.inr (.inr (.inl ⟨rfl, hb, hs, hc, rfl⟩)))
    · obtain ⟨o, e, st, hf, hst⟩ := pixelDone_frame s.dropTurn c
      rw [hf]
      exact .inr (.inr (.inr (.inr (.inl ⟨rfl, hb, hs, o, e, st, rfl, hst⟩))))
  | platformWrite a b =>
    rw [hn] at h
    injection h with h
    exact .inr (.inr (.inr (.inr (.inr (.inl ⟨a, b, rfl, h.symm⟩)))))
  | platformUnback a =>
    rw [hn] at h
    injection h with h
    exact .inr (.inr (.inr (.inr (.inr (.inr (.inl ⟨a, rfl, h.symm⟩))))))
  | reset =>
    rw [hn] at h
    injection h with h
    exact .inr (.inr (.inr (.inr (.inr (.inr (.inr ⟨rfl, h.symm⟩))))))

/-- A conversion of `s` left alone, n engine steps after its CONVERT. -/
structure Running (s : State) (n : Nat) (u : State) : Prop where
  status : u.status = { busy := true, done := false, err := false, wign := false, errCode := 0 }
  stuck : u.stuck = false
  turns : u.turns = []
  changed : u.changed = []
  eng : u.eng.wf true
  pix : u.eng.pix = n
  packed : u.packedRight
  params : u.params = s.params
  regs : u.regs = s.regs
  source : u.source = s.source
  hosts : u.hosts = s.hosts
  observed : u.observed = s.observed

/-- Its next step is the engine's. -/
theorem step_running {s u : State} {n : Nat} (h : Running s n u) : step u = engineTurn u := by
  have hn : u.nextTurn = .engine := by 
    unfold State.nextTurn unplannedTurn; rw [h.turns, engineEnabled_iff.2 ⟨by rw [h.status], h.stuck⟩]; rfl
  rw [step_engine u hn, dropTurn_nil h.turns]

/-- With a backed buffer, that step has its pixel. -/
theorem fetch_running {s u : State} {n : Nat} (hv : validShape s.regs = true) (hB : s.backed) (h : Running s n u) :
    ∃ c, fetchResized u u.eng.pix = some c ∧ step u = .next (u.pixelDone c).nextDraw := by
  have hb : u.status.busy = true := by rw [h.status]
  obtain ⟨c, hc⟩ := fetchResized_of_backed h.eng (by rw [h.regs]; exact hv) (fun a ha => by
    rw [h.regs] at ha
    rw [h.source]
    exact hB a ha)
  refine ⟨c, hc, ?_⟩
  rw [step_running h, engineTurn_step hb h.stuck hc]

/-- One more step. -/
theorem running_next {s u : State} {n : Nat} (h : Running s n u) {c} (hc : fetchResized u u.eng.pix = some c)
    (hn : n < 8191) :
    Running s (n + 1) (u.pixelDone c).nextDraw := by
  have hb : u.status.busy = true := by rw [h.status]
  have hne : u.eng.pix ≠ 8191 := by rw [h.pix]; omega
  have hpix : (u.pixelDone c).eng.pix = u.eng.pix + 1 := by rw [pixelDone_eq h.eng]; simp [hne]
  have hst : (u.pixelDone c).status = u.status := by rw [pixelDone_eq h.eng]; simp [hne]
  obtain ⟨o, e, st, hf, -⟩ := pixelDone_frame u c
  refine ⟨hst.trans h.status, ?_, ?_, ?_, ?_, ?_, ?_, ?_, ?_, ?_, ?_, ?_⟩
  · rw [hf]; exact h.stuck
  · rw [hf]; exact h.turns
  · rw [hf]; exact h.changed
  · have := engine_wf_pixelDone h.eng c
    simpa [hne] using this
  · show (u.pixelDone c).eng.pix = _; rw [hpix, h.pix]
  · intro _ _ i hi
    have hi : i < (u.pixelDone c).eng.pix := hi
    rw [hpix] at hi
    have hd : (u.pixelDone c).nextDraw.destBit (pixelX i) (pixelY i) = u.destBit (pixelX i) (pixelY i) := by
      rw [hf]; rfl
    rw [hd]
    exact packedBit_done h.eng h.packed hb h.changed hc (by omega)
  all_goals rw [hf]
  exacts [h.params, h.regs, h.source, h.hosts, h.observed]

/-- Its start. -/
theorem running_zero {s : State} (hb : s.status.busy = false) (ht : s.turns = []) (hv : validShape s.regs = true) :
    ∃ s1, exec .convert s = .next s1 ∧ Running s 0 s1 := by
  refine ⟨_, rfl, ?_⟩
  rw [gatedWrite_idle hb, convertEffect, if_pos hv]
  exact ⟨rfl, rfl, ht, rfl, ⟨fun _ => ⟨Nat.zero_lt_succ _, rfl, (Nat.zero_div 8).symm⟩, fun h => (by cases h),
      fun _ _ => (by simp [State.startConversion, Engine.start])⟩, rfl,
    fun _ _ i hi => absurd hi (Nat.not_lt_zero _), rfl, rfl, rfl, rfl, rfl⟩

/-- Every point of it. -/
theorem run_running {s s1 : State} (hv : validShape s.regs = true) (hB : s.backed) (h1 : Running s 0 s1) (n : Nat)
    (hn : n < 8192) :
    ∃ u, Sys2Proof.core.run n s1 = .next u ∧ Running s n u := by
  induction n with
  | zero => exact ⟨s1, rfl, h1⟩
  | succ n ih =>
    obtain ⟨u, hu, hR⟩ := ih (by omega)
    obtain ⟨c, hc, hs⟩ := fetch_running hv hB hR
    refine ⟨_, ?_, running_next hR hc (by omega)⟩
    exact (core_run_succ hu).trans hs

end Sys2Proof.Machine
end

