-- ==== Sys2Proof/Laws/PerInstr.lean ====
section
/-! SUPPORT. Facts about every instruction as syntax, one lemma for each constructor. -/

namespace Sys2Proof.Laws.Legal

open Sys2Proof Sys2Proof.Machine

/-- A well-formed instruction is encoded as a transaction that R49 admits, whose direction bit says whether it returns
data (R64), or as a command word, which returns none (R67). -/
def Statement (i : Instr) : Prop :=
  i.wellFormed = true →
    match encode i with
    | .bus t => accessProblem t.off t.size = none ∧ t.isWrite = !i.isRead
    | .cmd _ => i.isRead = false

/-- A register transaction of 4 bytes at a fixed, aligned offset. -/
theorem register (d : Word) (desc : BitVec 13) (w : Bool) (off : Nat) (h : desc.toNat = (if w then 4096 else 0) + off)
    (ho : off < 0x400) (ha : off % 4 = 0) :
    accessProblem (⟨desc, 4, d⟩ : Txn).off 4 = none ∧ (⟨desc, 4, d⟩ : Txn).isWrite = w := by
  obtain ⟨h1, h2⟩ := Txn.fields_of_desc ⟨desc, 4, d⟩ off w h (by omega)
  exact ⟨accessProblem_eq_none.2 (.inl (by rw [h1]; exact ⟨ho, rfl, ha⟩)), h2⟩

/-- A transaction of n bytes in the OUT window. -/
theorem out (d : Word) (k : BitVec 10) (n : Size) (w : Bool) (hi : BitVec 3) (hw : hi.toNat = (if w then 5 else 1))
    (hk : outAccess k n = true) :
    accessProblem (⟨hi ++ k, n.bytes, d⟩ : Txn).off n.bytes = none ∧ (⟨hi ++ k, n.bytes, d⟩ : Txn).isWrite = w := by
  have := k.isLt
  obtain ⟨h1, h2⟩ := Txn.fields_of_desc ⟨hi ++ k, n.bytes, d⟩ (1024 + k.toNat) w
    (by rw [toNat_desc_append, hw]; cases w <;> simp; omega) (by omega)
  refine ⟨accessProblem_eq_none.2 (.inr ?_), h2⟩
  rw [h1]
  simp only [outAccess, beq_iff_eq] at hk
  refine ⟨by omega, n.bytes_legal, ?_⟩
  rcases n.bytes_legal with h | h | h <;> rw [h] at hk ⊢ <;> omega

/-- A transaction of n bytes at a reserved offset. -/
theorem reserved (d : Word) (off : BitVec 12) (n : Size) (w : Bool) (hi : BitVec 1) (hw : hi.toNat = w.toNat)
    (ho : reservedAccess off n = true) :
    accessProblem (⟨hi ++ off, n.bytes, d⟩ : Txn).off n.bytes = none ∧
      (⟨hi ++ off, n.bytes, d⟩ : Txn).isWrite = w := by
  have := off.isLt
  obtain ⟨h1, h2⟩ := Txn.fields_of_desc ⟨hi ++ off, n.bytes, d⟩ off.toNat w
    (by rw [toNat_desc_append, hw]; cases w <;> simp) (by omega)
  refine ⟨accessProblem_eq_none.2 ?_, h2⟩
  rw [h1]
  simp only [reservedAccess, Bool.or_eq_true, Bool.and_eq_true, decide_eq_true_eq, beq_iff_eq] at ho
  rcases ho with ⟨⟨⟨_, h3⟩, rfl⟩, h4⟩ | ⟨h3, h4⟩
  · exact .inl ⟨h3, rfl, h4⟩
  · exact .inr ⟨by omega, n.bytes_legal, h4⟩

theorem wrCmd (d : Word) : Statement (.wrCmd d) := fun _ => register d _ true 0x000 rfl (by decide) rfl
theorem rdCmd : Statement .rdCmd := fun _ => register 0 _ false 0x000 rfl (by decide) rfl
theorem wrStatus (d : Word) : Statement (.wrStatus d) := fun _ => register d _ true 0x004 rfl (by decide) rfl
theorem rdStatus : Statement .rdStatus := fun _ => register 0 _ false 0x004 rfl (by decide) rfl
theorem wrSrcBase (d : Word) : Statement (.wrSrcBase d) := fun _ => register d _ true 0x008 rfl (by decide) rfl
theorem rdSrcBase : Statement .rdSrcBase := fun _ => register 0 _ false 0x008 rfl (by decide) rfl
theorem wrSrcLen (d : Word) : Statement (.wrSrcLen d) := fun _ => register d _ true 0x00C rfl (by decide) rfl
theorem rdSrcLen : Statement .rdSrcLen := fun _ => register 0 _ false 0x00C rfl (by decide) rfl
theorem wrSrcWidth (d : Word) : Statement (.wrSrcWidth d) := fun _ => register d _ true 0x010 rfl (by decide) rfl
theorem rdSrcWidth : Statement .rdSrcWidth := fun _ => register 0 _ false 0x010 rfl (by decide) rfl
theorem wrSrcHeight (d : Word) : Statement (.wrSrcHeight d) := fun _ => register d _ true 0x014 rfl (by decide) rfl
theorem rdSrcHeight : Statement .rdSrcHeight := fun _ => register 0 _ false 0x014 rfl (by decide) rfl
theorem wrThreshold (d : Word) : Statement (.wrThreshold d) := fun _ => register d _ true 0x018 rfl (by decide) rfl
theorem rdThreshold : Statement .rdThreshold := fun _ => register 0 _ false 0x018 rfl (by decide) rfl
theorem rdOut (k : BitVec 10) (n : Size) : Statement (.rdOut k n) := fun h => out 0 k n false _ rfl h
theorem wrOut (k : BitVec 10) (n : Size) (d : Word) : Statement (.wrOut k n d) := fun h => out d k n true _ rfl h
theorem rdReserved (off : BitVec 12) (n : Size) : Statement (.rdReserved off n) :=
  fun h => reserved 0 off n false _ rfl h
theorem wrReserved (off : BitVec 12) (n : Size) (d : Word) : Statement (.wrReserved off n d) :=
  fun h => reserved d off n true _ rfl h
theorem nop : Statement .nop := fun _ => rfl
theorem convert : Statement .convert := fun _ => rfl
theorem cmdReserved (w : Word) : Statement (.cmdReserved w) := fun _ => rfl

end Sys2Proof.Laws.Legal
end

