-- ==== Sys2Proof/Tests/Slice0.lean ====
section
/-! SUPPORT. Tests: ill-formed terms the checks refuse, words written out from the tables of R68 and R69, the spec's own
vectors (95_test_vectors.md), and for every statement with hypotheses a state and operands that meet them. -/

namespace Sys2Proof.Tests

open Sys2Proof Sys2Proof.Machine

/-! ### Well-formedness: the edges of each check, and terms it refuses (R42, R49, R69) -/

theorem test_wellFormed_edges :
    (Instr.rdOut 0x3FF .b1).wellFormed = true ∧ (Instr.rdReserved 0x01C .b4).wellFormed = true ∧
    (Instr.rdReserved 0x3FC .b4).wellFormed = true ∧ (Instr.wrReserved 0xFFF .b1 5).wellFormed = true := by decide

theorem test_outAccess_refuses_misaligned :
    (Instr.rdOut 0x001 .b2).wellFormed = false ∧ (Instr.wrOut 0x3FE .b4 0).wellFormed = false := by decide

theorem test_reservedAccess_refuses_other_regions :
    (Instr.rdReserved 0x018 .b4).wellFormed = false ∧ (Instr.rdReserved 0x400 .b4).wellFormed = false ∧
    (Instr.wrReserved 0x7FF .b1 0).wellFormed = false := by decide

theorem test_reservedAccess_refuses_bad_sizes :
    (Instr.rdReserved 0x01C .b2).wellFormed = false ∧ (Instr.wrReserved 0x801 .b2 0).wellFormed = false ∧
    (Instr.rdReserved 0x01E .b4).wellFormed = false := by decide

theorem test_cmdReserved_refuses_the_two_commands :
    (Instr.cmdReserved 0).wellFormed = false ∧ (Instr.cmdReserved 1).wellFormed = false := by decide

/-! ### Decoding: one word for every constructor, bit by bit (D, then OFF[11:0]; R68), and the command words (R69) -/

theorem test_decode_wrCmd : decodeBus ⟨0b1_000000000000, 4, 7⟩ = .ok (.wrCmd 7) := rfl
theorem test_decode_rdCmd : decodeBus ⟨0b0_000000000000, 4, 0⟩ = .ok .rdCmd := rfl
theorem test_decode_rdStatus : decodeBus ⟨0b0_000000000100, 4, 0⟩ = .ok .rdStatus := rfl
theorem test_decode_wrStatus : decodeBus ⟨0b1_000000000100, 4, 7⟩ = .ok (.wrStatus 7) := rfl
theorem test_decode_rdSrcBase : decodeBus ⟨0b0_000000001000, 4, 0⟩ = .ok .rdSrcBase := rfl
theorem test_decode_wrSrcBase : decodeBus ⟨0b1_000000001000, 4, 7⟩ = .ok (.wrSrcBase 7) := rfl
theorem test_decode_rdSrcLen : decodeBus ⟨0b0_000000001100, 4, 0⟩ = .ok .rdSrcLen := rfl
theorem test_decode_wrSrcLen : decodeBus ⟨0b1_000000001100, 4, 7⟩ = .ok (.wrSrcLen 7) := rfl
theorem test_decode_rdSrcWidth : decodeBus ⟨0b0_000000010000, 4, 0⟩ = .ok .rdSrcWidth := rfl
theorem test_decode_wrSrcWidth : decodeBus ⟨0b1_000000010000, 4, 7⟩ = .ok (.wrSrcWidth 7) := rfl
theorem test_decode_rdSrcHeight : decodeBus ⟨0b0_000000010100, 4, 0⟩ = .ok .rdSrcHeight := rfl
theorem test_decode_wrSrcHeight : decodeBus ⟨0b1_000000010100, 4, 7⟩ = .ok (.wrSrcHeight 7) := rfl
theorem test_decode_rdThreshold : decodeBus ⟨0b0_000000011000, 4, 0⟩ = .ok .rdThreshold := rfl
theorem test_decode_wrThreshold : decodeBus ⟨0b1_000000011000, 4, 7⟩ = .ok (.wrThreshold 7) := rfl
theorem test_decode_rdOut : decodeBus ⟨0b0_011111111110, 2, 0⟩ = .ok (.rdOut 0x3FE .b2) := rfl
theorem test_decode_wrOut : decodeBus ⟨0b1_010000000001, 1, 7⟩ = .ok (.wrOut 0x001 .b1 7) := rfl
theorem test_decode_rdReserved : decodeBus ⟨0b0_100000000000, 1, 0⟩ = .ok (.rdReserved 0x800 .b1) := rfl
theorem test_decode_wrReserved : decodeBus ⟨0b1_000000011100, 4, 7⟩ = .ok (.wrReserved 0x01C .b4 7) := rfl
theorem test_decode_nop : decodeCmd 0x00000000 = .nop := rfl
theorem test_decode_convert : decodeCmd 0x00000001 = .convert := rfl
theorem test_decode_cmdReserved : decodeCmd 0x00000101 = .cmdReserved 0x00000101 := rfl

theorem test_decode_refuses :
    decodeBus ⟨0x0002, 4, 0⟩ = .error .misaligned ∧ decodeBus ⟨0x0004, 1, 0⟩ = .error .subWordRegister ∧
    decodeBus ⟨0x0401, 2, 0⟩ = .error .misaligned ∧ decodeBus ⟨0x0400, 3, 0⟩ = .error .badSize := ⟨rfl, rfl, rfl, rfl⟩

theorem test_table_words :
    decodeTableWord 13 0x0004 = some .rdStatus ∧ decodeTableWord 16 0x1018 = some (.wrThreshold 0) ∧
    decodeTableWord 32 0x00000001 = some .convert ∧ decodeTableWord 64 0x000000FF00001018 = some (.wrThreshold 0xFF) ∧
    decodeTableWord 64 0x00000000000107FF = some (.rdOut 0x3FF .b1) ∧ decodeTableWord 13 0x0002 = none := by decide

/-! ### The states the tests use: a 2 × 2 image of pixels (30, 30, 30) at 0x1000 (95_test_vectors.md P1) -/

def cells : Memory :=
  [(0x1000, 30), (0x1001, 30), (0x1002, 30), (0x1003, 30), (0x1004, 30), (0x1005, 30),
   (0x1006, 30), (0x1007, 30), (0x1008, 30), (0x1009, 30), (0x100A, 30), (0x100B, 30)]

/-- Configured, not started. -/
def idle : State :=
  { State.reset with
    regs := { srcBase := 0x1000, srcLen := 12, srcWidth := 2, srcHeight := 2, threshold := 20 }
    out := Vector.replicate 1024 0x80
    source := cells }

/-- The same, started. -/
def busy : State := { idle with status := { busy := true, done := false, err := false, wign := false, errCode := 0 } }

/-- The same before its last engine step, with a threshold that gives black. -/
def last : State :=
  { busy with
    regs := { busy.regs with threshold := 255 }
    out := Vector.replicate 1024 0
    eng := { pix := 8191, acc := 0, nb := 7, oidx := 1023 } }

/-- The same, started with no byte of the buffer backed, and stuck on its first read. -/
def unbacked : State := { busy with source := [] }
def stuck : State := { unbacked with stuck := true }

/-- With one host that has one statement, whose turn comes next. -/
def withOp (s : State) (op : HostOp) : State :=
  { s with hosts := [{ prog := [op], pc := 0, vars := [] }], turns := [.host 0] }

/-- STATUS after an instruction, as a host reads it. -/
def statusAfter (i : Instr) (s : State) : Option Word :=
  match exec i s with
  | .next t => some t.status.word
  | .fault _ => none
  | .refused _ => none

/-- The data word a read returns. -/
def dataOf (i : Instr) (s : State) : Option Word :=
  match exec i s with
  | .next t => some t.readData
  | .fault _ => none
  | .refused _ => none

/-- The hidden state after an engine step. -/
def engAfter (s : State) : Option Engine :=
  match engineTurn s with
  | .next t => some t.eng
  | .fault _ => none
  | .refused _ => none

def withStatus (f : Status) : State := { idle with status := f }

/-! ### Host operations (95_test_vectors.md section 2.1; the last vectors are the examples of R77 to R98) -/

theorem test_status_after_reset : dataOf .rdStatus State.reset = some 0x00000000 := by decide
theorem test_convert_after_reset : statusAfter (.wrCmd 1) State.reset = some 0x00000106 := by decide
theorem test_convert_accepted : statusAfter (.wrCmd 1) idle = some 0x00000001 := by decide

theorem test_commands_after_error :
    let s := withStatus { busy := false, done := true, err := true, wign := false, errCode := 1 }
    statusAfter (.wrCmd 0) s = some 0x00000106 ∧ statusAfter (.wrCmd 2) s = some 0x00000206 ∧
    statusAfter (.wrCmd 0x00000101) s = some 0x00000206 := by decide

theorem test_writes_while_busy :
    statusAfter (.wrCmd 2) busy = some 0x00000009 ∧ statusAfter (.wrThreshold 0x40) busy = some 0x00000009 ∧
    statusAfter (.wrStatus 0xFFFFFFFF) busy = some 0x00000001 ∧ statusAfter (.wrOut 0 .b4 0) busy = some 0x00000001 ∧
    statusAfter (.wrReserved 0xFFF .b1 5) busy = some 0x00000001 := by decide

theorem test_threshold_takes_eight_bits :
    (match exec (.wrThreshold 0x00001234) idle with
      | .next t => dataOf .rdThreshold t
      | .fault _ => none
      | .refused _ => none) = some 0x00000034 := by decide

theorem test_reads_of_nothing :
    dataOf .rdCmd busy = some 0 ∧ dataOf (.rdReserved 0x01C .b4) busy = some 0 ∧
    dataOf (.rdReserved 0x800 .b1) idle = some 0 := by decide

theorem test_out_is_little_endian :
    let s := { idle with out := ((Vector.replicate 1024 0).set 0 0x80).set 1023 0x01 }
    dataOf (.rdOut 0 .b4) s = some 0x00000080 ∧ dataOf (.rdOut 0 .b2) s = some 0x00000080 ∧
    dataOf (.rdOut 0x3FF .b1) s = some 0x00000001 ∧ dataOf (.rdOut 0x3FC .b4) s = some 0x01000000 := by decide +kernel

/-! ### Validation (section 2.2) -/

theorem test_validShape :
    validShape ⟨0, 3, 1, 1, 0⟩ = true ∧ validShape ⟨0, 0, 1, 0, 0⟩ = false ∧ validShape ⟨0, 11, 2, 2, 0⟩ = false ∧
    validShape ⟨0xFFFFFFF4, 12, 2, 2, 0⟩ = true ∧ validShape ⟨0xFFFFFFF5, 12, 2, 2, 0⟩ = false ∧
    validShape ⟨0, 0, 0x80000000, 2, 0⟩ = false ∧ validShape ⟨0, 300000000, 10000, 10000, 0⟩ = true ∧
    validShape ⟨0, 0xFFFFFFFF, 0x55555555, 1, 0⟩ = true := by decide

/-! ### Step 1 (section 2.3) -/

theorem test_mapX :
    [0, 42, 43, 84, 85, 127].map (mapX .center 3) = [0, 0, 1, 1, 2, 2] ∧
    [0, 42, 43, 85, 86, 127].map (mapX .floor 3) = [0, 0, 1, 1, 2, 2] ∧
    [0, 127].map (mapX .center 10000) = [39, 9960] ∧ [0, 127].map (mapX .floor 10000) = [0, 9921] := by decide

theorem test_mapY :
    [20, 21, 42, 43].map (mapY .center 3) = [0, 1, 1, 2] ∧ [21, 22, 42, 43].map (mapY .floor 3) = [0, 1, 1, 2] ∧
    [0, 63].map (mapY .center 10000) = [78, 9921] ∧ [0, 63].map (mapY .floor 10000) = [0, 9843] := by decide

theorem test_source_address : idle.pixelAddr 64 = 0x1003 := by decide

/-! ### Steps 2 and 3 (section 2.4) -/

theorem test_avg :
    avg .wrap8 86 85 85 = 0 ∧ avg .wide 86 85 85 = 85 ∧ avg .wrap8 200 200 0 = 48 ∧ avg .wide 200 200 0 = 133 ∧
    avg .wrap8 255 255 255 = 84 ∧ avg .wide 255 255 255 = 255 ∧ avg .wrap8 85 85 85 = 85 := by decide

theorem test_thresh : thresh 30 30 = false ∧ thresh 30 29 = true ∧ thresh 255 255 = false ∧ thresh 1 0 = true := by
  decide

/-! ### Step 4 (section 2.5, R99, R122, R123) -/

theorem test_placeBit :
    (placeBit true 0 ||| placeBit true 2 ||| placeBit true 4 ||| placeBit true 6) = 0xAA ∧ placeBit true 7 = 0x01 := by
  decide

theorem test_emitNow :
    emitNow 8 7 7 = true ∧ emitNow 7 6 6 = false ∧ emitNow 1 127 127 = true ∧ emitNow 1 0 8191 = true := by decide

theorem test_first_engine_step : engAfter busy = some { pix := 1, acc := 0x80, nb := 1, oidx := 0 } := by decide

theorem test_last_engine_step :
    (match engineTurn { last with regs := { last.regs with threshold := 20 } } with
      | .next t => some (t.status.word, t.out[1023], t.eng)
      | .fault _ => none
      | .refused _ => none) = some (0x00000002, 0x01, { pix := 0, acc := 0, nb := 0, oidx := 1024 }) := by
  decide +kernel

/-- R45, R139, D27: no value and no error, and a byte that is backed later does not free the engine; reset does. -/
theorem test_unbacked_byte_is_stuck : engineTurn unbacked = .next stuck ∧ stuck.status.word = 0x00000001 := ⟨rfl, by decide⟩

theorem test_only_reset_frees_a_stuck_engine :
    engineTurn { stuck with source := cells } = .next { stuck with source := cells } ∧
    stuck.resetEngine.stuck = false ∧ stuck.resetEngine.status.word = 0x00000000 := ⟨rfl, by decide⟩

/-- The image of section 2.5 that tells the two maps apart: white, black, white. -/
theorem test_maps_differ :
    let img : Image := fun x _ => if x = 1 then (0, 0, 0) else (255, 255, 255)
    [4, 5, 9, 10, 11].map (convertByte ⟨.wide, .center⟩ img 3 1 10) = [0xFF, 0xE0, 0x00, 0x07, 0xFF] ∧
    [4, 5, 9, 10, 11].map (convertByte ⟨.wide, .floor⟩ img 3 1 10) = [0xFF, 0xE0, 0x00, 0x03, 0xFF] := by decide

/-- A changed source byte makes its packed bits free; the others stay (R59). -/
theorem test_source_change :
    let s := { busy with eng := { pix := 4, acc := 0xF0, nb := 4, oidx := 0 } }
    (platformWrite 0x1003 7 s).eng = s.eng ∧ (platformWrite 0x1003 7 s).changed = [0x1003] ∧
    (platformWrite 0x1000 30 s).changed = [] := by decide +kernel

/-! ### Witnesses: states and operands that meet the hypotheses of each statement -/

theorem witness_backed : idle.backed ∧ last.backed := by
  have h : ∀ a, 0x1000 ≤ a → a < 0x100C → (Memory.read cells a).isSome = true := by
    intro a h1 h2
    interval_cases a <;> decide
  constructor <;> intro a ha <;>
    simp only [inBuffer, Bool.and_eq_true, decide_eq_true_eq] at ha <;>
    exact h a ha.1 ha.2

theorem witness_Inv_of (s : State) (hs : s.status = busy.status) (hr : validShape s.regs = true) (he : s.eng.wf true)
    (hm : s.source = cells) (hc : s.changed = []) (hh : s.hosts = []) : s.Inv := by
  refine ⟨?_, ?_, fun _ => by rw [hs]; rfl, fun _ => hr, ?_, ?_, ?_⟩
  · rw [hs]; exact ⟨fun _ => ⟨rfl, rfl⟩, fun h => (by cases h), fun _ => rfl⟩
  · rw [hs]; exact he
  · rw [hm]; simp [Memory.wf, Cells.rising, cells]
  · rw [hc]; exact ⟨List.nodup_nil, fun _ a ha => (by cases ha)⟩
  · rw [hh]; intro h hm; cases hm

theorem witness_busy_Inv : busy.Inv :=
  witness_Inv_of busy rfl (by decide) ⟨fun _ => by decide, fun h => (by cases h), fun _ _ => by simp [busy, idle, State.reset, Engine.start]⟩ rfl rfl rfl

theorem witness_last_Inv : last.Inv :=
  witness_Inv_of last rfl (by decide) ⟨fun _ => by decide, fun h => (by cases h), fun _ _ => by simp [last]⟩ rfl rfl rfl

theorem witness_StatusReadLayout : busy.Inv := witness_busy_Inv

/-- `last` is right: everything is black so far, and with T = 255 every pixel is (R118). -/
theorem witness_last_packedRight : last.packedRight := by
  intro _ _ i hi
  have hd : last.destBit (pixelX i) (pixelY i) = false := by
    simp only [State.destBit, destBit, pixelBit, thresh, decide_eq_false_iff_not, Nat.not_lt]
    exact avg_le _ _ _ _
  rw [hd]
  show (if i / 8 < 1023 then (outByte last (i / 8)).getLsbD (7 - i % 8) else (0#8).getLsbD (7 - i % 8)) = false
  have hk : i / 8 < 1024 := by
    have hi : i < 8191 := hi
    omega
  split_ifs
  · simp [outByte, last, hk]
  · simp

def readOp : HostOp := .bus ⟨0x0004, 4, 0⟩ (some 3)
def busyOutOp : HostOp := .bus ⟨0x0400, 4, 0⟩ (some 3)
def writeOp : HostOp := .bus ⟨0x1018, 4, 30⟩ none
def badOp : HostOp := .bus ⟨0x0002, 4, 0⟩ none

theorem witness_DecodeEncodeRoundTrip :
    (Instr.rdOut 0x3FE .b2).wellFormed = true ∧ (Instr.cmdReserved 2).wellFormed = true := by decide

theorem witness_EncodeDecodeRoundTrip : decodeBus ⟨0x1FFF, 1, 5⟩ = .ok (.wrReserved 0xFFF .b1 5) := rfl

theorem witness_IllegalTransactionsRefused :
    (¬ ∃ i, decodeBus ⟨0x0002, 4, 0⟩ = .ok i) ∧ (withOp idle badOp).nextTurn = .host 0 ∧
    (withOp idle badOp).fetch 0 = some badOp ∧
    decodeBus ⟨0x0018, 4, 0⟩ = .ok .rdThreshold ∧ decodeBus ⟨0x03FC, 4, 0⟩ = .ok (.rdReserved 0x3FC .b4) ∧
    decodeBus ⟨0x07FE, 2, 0⟩ = .ok (.rdOut 0x3FE .b2) ∧ decodeBus ⟨0x0FFC, 4, 0⟩ = .ok (.rdReserved 0xFFC .b4) :=
  ⟨fun ⟨i, h⟩ => (by
    rw [show decodeBus ⟨0x0002, 4, 0⟩ = .error .misaligned from rfl] at h
    cases h), rfl, rfl, rfl, rfl, rfl, rfl⟩

theorem witness_RowsTakeTheirOffsets :
    accessProblem (⟨0x001C, 4, 0⟩ : Txn).off 4 = none ∧ decodeRow 0x001C = .rdReserved ∧
    accessProblem (⟨0x03FC, 4, 0⟩ : Txn).off 4 = none ∧ decodeRow 0x03FC = .rdReserved ∧
    accessProblem (⟨0x0400, 4, 0⟩ : Txn).off 4 = none ∧ decodeRow 0x0400 = .rdOut ∧
    accessProblem (⟨0x17FF, 1, 0⟩ : Txn).off 1 = none ∧ decodeRow 0x17FF = .wrOut ∧
    accessProblem (⟨0x1800, 1, 0⟩ : Txn).off 1 = none ∧ decodeRow 0x1800 = .wrReserved ∧
    accessProblem (⟨0x1FFF, 1, 0⟩ : Txn).off 1 = none ∧ decodeRow 0x1FFF = .wrReserved := by decide

theorem witness_CommandWordsDecode :
    (2 : Word) ≠ 0x00000000 ∧ (2 : Word) ≠ 0x00000001 ∧ (0xFFFFFFFF : Word) ≠ 0x00000001 ∧ busy.status.busy = true := by
  decide

theorem witness_StepRunsTheDecodedInstruction :
    (withOp idle readOp).nextTurn = .host 0 ∧ (withOp idle readOp).fetch 0 = some readOp ∧
    decodeBus ⟨0x0004, 4, 0⟩ = .ok .rdStatus := ⟨rfl, rfl, rfl⟩

theorem witness_HostTurnHandsOverReadData :
    ∃ h, (withOp idle readOp).hosts[0]? = some h ∧ h.varsWf :=
  ⟨_, rfl, by simp [HostAgent.varsWf, Cells.rising]⟩

theorem witness_BranchesFollowTheMask :
    (withOp idle (.bz 3 2 0)).nextTurn = .host 0 ∧ (withOp idle (.bz 3 2 0)).fetch 0 = some (.bz 3 2 0) ∧
    (withOp idle (.bnz 3 2 0)).fetch 0 = some (.bnz 3 2 0) := ⟨rfl, rfl, rfl⟩

theorem witness_FetchWordRunsTheRow :
    decodeTableWord 13 0x0004 = some .rdStatus ∧ decodeTableWord 32 0x00000001 = some .convert := by decide

theorem witness_StepIsOneTurn :
    (withOp idle readOp).turns = [.host 0] ∧ busy.turns = [] ∧ busy.status.busy = true ∧ busy.stuck = false ∧
    idle.turns = [] ∧ idle.status.busy = false ∧ stuck.turns = [] ∧ stuck.stuck = true :=
  ⟨rfl, rfl, rfl, rfl, rfl, rfl, rfl, rfl⟩

theorem witness_EndedRunStays : idle.ended = true ∧ idle.turns = [] := ⟨rfl, rfl⟩

/-- The edges of the reserved offsets, for the statements about reads and writes of them. -/
theorem witness_ReservedOffsets :
    (0x01C ≤ (0x01C : BitVec 12).toNat ∧ (0x01C : BitVec 12).toNat ≤ 0x3FF ∧ (0x01C : BitVec 12).toNat % 4 = 0) ∧
    (0x01C ≤ (0x3FC : BitVec 12).toNat ∧ (0x3FC : BitVec 12).toNat ≤ 0x3FF ∧ (0x3FC : BitVec 12).toNat % 4 = 0) ∧
    (0x800 ≤ (0x800 : BitVec 12).toNat ∧ (0x800 : BitVec 12).toNat % Size.b4.bytes = 0) ∧
    (0x800 ≤ (0xFFF : BitVec 12).toNat ∧ (0xFFF : BitVec 12).toNat % Size.b1.bytes = 0) := by decide

theorem witness_RegisterReadsReturnTheRegister :
    exec (.rdReserved 0x01C .b4) idle = .next { idle with readData := 0 } ∧
    exec (.rdReserved 0xFFF .b1) busy = .next { busy with readData := 0 } := ⟨rfl, rfl⟩

theorem witness_OutReadReturnsTheBuffer :
    idle.status.busy = false ∧ (0x3FE : BitVec 10).toNat % Size.b2.bytes = 0 ∧
    (0x3FF : BitVec 10).toNat % Size.b1.bytes = 0 := by decide

theorem witness_MisalignedFormsRefused :
    (0x3FF : BitVec 10).toNat % Size.b2.bytes ≠ 0 ∧
    ((0x3FC : BitVec 12).toNat < 0x400 ∧ Size.b2 ≠ .b4) ∧ (0xFFE : BitVec 12).toNat % Size.b4.bytes ≠ 0 := by decide

theorem witness_HostReadsHaveNoSideEffect :
    Instr.rdStatus.isRead = true ∧ ∃ t, exec .rdStatus busy = .next t := ⟨rfl, _, rfl⟩

theorem witness_RepeatedReadsAgree :
    ∃ s u v : State, decodeBus ⟨0x0004, 4, 0⟩ = .ok .rdStatus ∧ Instr.rdStatus.isRead = true ∧ s.nextTurn = .host 0 ∧
      s.fetch 0 = some readOp ∧ step s = .next u ∧ u.nextTurn = .host 0 ∧ u.fetch 0 = some readOp ∧ step u = .next v :=
  ⟨{ busy with hosts := [{ prog := [readOp, readOp], pc := 0, vars := [] }], turns := [.host 0, .host 0] }, _, _,
    rfl, rfl, rfl, rfl, rfl, rfl, rfl, rfl⟩

/-- The same with reads of OUT while BUSY = 1, the form that rests on assumption 4. -/
theorem witness_RepeatedReadsAgree_busyOut :
    ∃ s u v : State, s.status.busy = true ∧ decodeBus ⟨0x0400, 4, 0⟩ = .ok (.rdOut 0 .b4) ∧
      (Instr.rdOut 0 .b4).isRead = true ∧ s.nextTurn = .host 0 ∧ s.fetch 0 = some busyOutOp ∧ step s = .next u ∧
      u.nextTurn = .host 0 ∧ u.fetch 0 = some busyOutOp ∧ step u = .next v :=
  ⟨{ busy with hosts := [{ prog := [busyOutOp, busyOutOp], pc := 0, vars := [] }], turns := [.host 0, .host 0] }, _, _,
    rfl, rfl, rfl, rfl, rfl, rfl, rfl, rfl, rfl⟩

theorem witness_ConfigWritesTakeEffect :
    idle.status.busy = false ∧ busy.status.busy = true ∧
    Instr.wrThreshold 30 ∈ [Instr.wrSrcBase 30, .wrSrcLen 30, .wrSrcWidth 30, .wrSrcHeight 30, .wrThreshold 30] := by
  decide
theorem witness_WritesWhileBusyIgnored : busy.status.busy = true ∧ ∃ d, Instr.wrThreshold 30 = .wrThreshold d :=
  ⟨rfl, _, rfl⟩
theorem witness_ReadOnlyWritesChangeNothing : (0x3FE : BitVec 10).toNat % Size.b2.bytes = 0 := by decide
theorem witness_ConfigReadsBackWhatWasWritten : idle.status.busy = false := rfl
theorem witness_WriteCmdPerformsItsCommand : busy.status.busy = true := rfl
theorem witness_NopChangesNothing : idle.status.busy = false ∧ busy.status.busy = true := ⟨rfl, rfl⟩

/-- A buffer that ends at the last address of source memory (section 2.2). -/
theorem witness_ConvertStartsOrRejects_valid :
    ∃ s : State, s.status.busy = false ∧ 1 ≤ s.regs.srcWidth.toNat ∧ 1 ≤ s.regs.srcHeight.toNat ∧
      s.regs.srcLen.toNat = s.regs.srcWidth.toNat * s.regs.srcHeight.toNat * 3 ∧
      s.regs.srcBase.toNat + s.regs.srcLen.toNat ≤ 2 ^ 32 :=
  ⟨{ idle with regs := { idle.regs with srcBase := 0xFFFFFFF4 } }, rfl, by decide, by decide, by decide, by decide⟩

theorem witness_ConvertStartsOrRejects_invalid :
    ∃ s : State, s.status.busy = false ∧ ¬ (1 ≤ s.regs.srcWidth.toNat ∧ 1 ≤ s.regs.srcHeight.toNat ∧
      s.regs.srcLen.toNat = s.regs.srcWidth.toNat * s.regs.srcHeight.toNat * 3 ∧
      s.regs.srcBase.toNat + s.regs.srcLen.toNat ≤ 2 ^ 32) :=
  ⟨{ idle with regs := { idle.regs with srcBase := 0xFFFFFFF5 } }, rfl, by decide⟩

theorem witness_ReservedCommandRaises :
    idle.status.busy = false ∧ (2 : Word) ≠ 0x00000000 ∧ (2 : Word) ≠ 0x00000001 := by decide

theorem witness_NoStaleCompletion : idle.status.busy = false ∧ validShape idle.regs = true := by decide

theorem witness_MapsStayInRange : validShape idle.regs = true ∧ (127 : Nat) ≤ 127 ∧ (63 : Nat) ≤ 63 ∧ (2 : Nat) ≤ 2 := by
  decide

theorem witness_MapsAgreeForDivisors : (128 : Nat) ∣ 128 ∧ (64 : Nat) ∣ 64 ∧ (1 : Nat) ≤ 1 ∧ (256 : Nat) ≤ 256 := by
  decide

theorem witness_CenterTiesTakeTheHigherIndex : (2 * 127 + 1) * 256 = 256 * 255 ∧ (2 * 63 + 1) * 128 = 128 * 127 := by
  decide

theorem witness_AverageRanges :
    256 ≤ (86 : Byte).toNat + (85 : Byte).toNat + (85 : Byte).toNat ∧
    (255 : Byte).toNat + (1 : Byte).toNat + (0 : Byte).toNat = (0 : Byte).toNat + (1 : Byte).toNat + (255 : Byte).toNat := by
  decide

theorem witness_DeadThresholds : (255 : Byte) = 255 ∧ Params.default.avgMode = .wrap8 ∧ 85 ≤ (85 : Byte).toNat := by
  decide

theorem witness_HigherThresholdGivesFewerBits :
    (20 : Byte).toNat < (30 : Byte).toNat ∧
    destBit Params.default (fun _ _ => (31, 31, 31)) 2 2 30 127 63 = true := by decide

theorem witness_ResultLayout : (127 : Nat) < 128 ∧ (63 : Nat) < 64 := by decide

theorem witness_UniformImage :
    (1 : Nat) ≤ 2 ∧ ∀ x y : Nat, x < 2 → y < 2 → (fun _ _ => (30, 30, 30) : Image) x y = (30, 30, 30) :=
  ⟨by decide, fun _ _ _ _ => rfl⟩

/-- `last` takes its engine step. -/
theorem witness_last_step : ∃ t, engineTurn last = .next t ∧ step last = .next t ∧ t.status.busy = false ∧
    last.nextTurn = .engine := ⟨_, rfl, rfl, rfl, rfl⟩

theorem witness_EmitsEveryEighthPixel :
    last.Inv ∧ last.status.busy = true ∧ last.eng.pix % 8 = 7 ∧ ∃ t, engineTurn last = .next t ∧ t.stuck = false :=
  ⟨witness_last_Inv, rfl, rfl, _, rfl, rfl⟩

theorem witness_EngineStepProcessesOnePixel_stuck :
    let s := { busy with source := [(0x1000, 30)] }
    s.status.busy = true ∧ s.stuck = false ∧ s.pixelAddr s.eng.pix = 0x1000 ∧ s.source.read (0x1000 + 1) = none ∧
    idle.status.busy = false ∧ stuck.stuck = true := by decide

theorem witness_EngineStepProcessesOnePixel :
    busy.Inv ∧ busy.status.busy = true ∧ busy.stuck = false ∧ busy.pixelAddr busy.eng.pix = 0x1000 ∧
    busy.source.read 0x1000 = some 30 ∧ busy.source.read 0x1001 = some 30 ∧ busy.source.read 0x1002 = some 30 ∧
    busy.changed = [] := ⟨witness_busy_Inv, by decide⟩

/-- The same with a byte of the pixel changed since CONVERT. -/
theorem witness_EngineStepProcessesOnePixel_changed :
    let s := { busy with changed := [0x1001] }
    s.Inv ∧ s.stuck = false ∧ s.source.read 0x1001 = some 30 ∧ 0x1001 ∈ s.changed ∧ 0x1000 ∉ s.changed := by
  refine ⟨?_, by decide⟩
  have h := witness_busy_Inv
  exact ⟨h.status, h.engine, h.stuck, h.shape, h.memory, by decide, h.hosts⟩

theorem witness_EngineStuckExactlyOnUnbackedBytes :
    busy.Inv ∧ busy.backed ∧ busy.stuck = false ∧ unbacked.stuck = false ∧ unbacked.status.busy = true ∧
    unbacked.source.read (unbacked.pixelAddr unbacked.eng.pix + 2) = none ∧ engineTurn unbacked = .next stuck :=
  ⟨witness_busy_Inv, witness_backed.1, rfl, rfl, rfl, rfl, rfl⟩

theorem witness_stuck_Inv : stuck.Inv := by
  have h := witness_busy_Inv
  exact ⟨h.status, h.engine, fun _ => rfl, h.shape, ⟨List.Pairwise.nil, fun _ hc => (by cases hc)⟩, h.changed, h.hosts⟩

/-- A stuck engine meets a host's write and the platform's. -/
theorem witness_StuckEngineWaitsForReset :
    (step unbacked = .next stuck ∧ unbacked.stuck = false) ∧
    (stuck.Inv ∧ stuck.stuck = true ∧ (∃ t, step { stuck with turns := [.platformWrite 0x1000 30] } = .next t) ∧
      ∃ t, step (withOp stuck writeOp) = .next t ∧ (withOp stuck writeOp).nextTurn ≠ .reset) ∧
    { stuck with turns := [.reset] }.nextTurn = .reset ∧
    (unbacked.status.busy = true ∧ unbacked.source.read (unbacked.pixelAddr unbacked.eng.pix + 0) = none) :=
  ⟨⟨rfl, rfl⟩, ⟨witness_stuck_Inv, rfl, ⟨_, rfl⟩, _, rfl, by decide⟩, rfl, rfl, rfl⟩

theorem witness_EngineTurnFrame : (∃ t, engineTurn busy = .next t) ∧ engineTurn idle = .next idle := ⟨⟨_, rfl⟩, rfl⟩

theorem witness_LastEngineStepCompletes :
    last.Inv ∧ last.status.busy = true ∧ last.eng.pix = 8191 ∧ ∃ t, engineTurn last = .next t ∧ t.stuck = false :=
  ⟨witness_last_Inv, rfl, rfl, _, rfl, rfl⟩

theorem witness_EveryStepKeepsTheInvariant : busy.Inv ∧ ∃ t, step busy = .next t := ⟨witness_busy_Inv, _, rfl⟩

theorem witness_EveryStepKeepsThePackedPixelsRight : last.Inv ∧ last.packedRight ∧ ∃ t, step last = .next t :=
  ⟨witness_last_Inv, witness_last_packedRight, _, rfl⟩

theorem witness_CompletionLeavesTheResult :
    last.Inv ∧ last.packedRight ∧ last.changed = [] ∧ last.status.busy = true ∧
      ∃ t, step last = .next t ∧ last.nextTurn = .engine ∧ t.status.busy = false :=
  ⟨witness_last_Inv, witness_last_packedRight, rfl, rfl, _, rfl, rfl, rfl⟩

theorem witness_ConversionTakes8192Steps :
    idle.status.busy = false ∧ idle.turns = [] ∧ validShape idle.regs = true ∧ idle.backed :=
  ⟨rfl, rfl, by decide, witness_backed.1⟩

/-- The two machines may be one: its run of 8192 steps after CONVERT answers a next state. -/
theorem witness_EqualInputsGiveEqualOutputs :
    idle.status.busy = false ∧ idle.turns = [] ∧ validShape idle.regs = true ∧ idle.backed ∧
      ∃ s1 s2, exec .convert idle = .next s1 ∧ Sys2Proof.core.run 8192 s1 = .next s2 := by
  have hv : validShape idle.regs = true := by decide
  refine ⟨rfl, rfl, hv, witness_backed.1, ?_⟩
  obtain ⟨s1, h1, hR1⟩ := running_zero (s := idle) rfl rfl hv
  obtain ⟨u, hu, hR⟩ := run_running hv witness_backed.1 hR1 8191 (by omega)
  obtain ⟨c, -, hs⟩ := fetch_running hv witness_backed.1 hR
  exact ⟨s1, _, h1, (core_run_succ hu).trans hs⟩

/-- The two machines may be one. -/
theorem witness_CompletionsWithEqualInputsLeaveEqualOut :
    last.Inv ∧ last.packedRight ∧ last.changed = [] ∧ last.status.busy = true ∧ last.nextTurn = .engine ∧
      ∃ t, step last = .next t ∧ t.status.busy = false :=
  ⟨witness_last_Inv, witness_last_packedRight, rfl, rfl, rfl, _, rfl, rfl⟩

/-- BUSY rises with CONVERT and falls with the last engine step and with reset. -/
theorem witness_BusyChangesOnlyAsNamed :
    (idle.status.busy = false ∧ validShape idle.regs = true) ∧ (∃ t, engineTurn busy = .next t ∧ t.stuck = false) ∧
    (∃ t, step (withOp idle (.bus ⟨0x1000, 4, 1⟩ none)) = .next t ∧ t.status.busy = true) ∧
    (∃ t, step last = .next t ∧ t.status.busy = false) ∧
    (∃ t, step { busy with turns := [.reset] } = .next t ∧ t.status.busy = false) :=
  ⟨⟨rfl, by decide⟩, ⟨_, rfl, rfl⟩, ⟨_, rfl, rfl⟩, ⟨_, rfl, rfl⟩, ⟨_, rfl, rfl⟩⟩

/-- WIGN rises with a write while busy, and falls with CONVERT and with reset. -/
theorem witness_WignChangesOnlyAsNamed :
    let w : Status := { busy := false, done := true, err := false, wign := true, errCode := 0 }
    (busy.status.busy = true ∧ (Instr.wrThreshold 30).isGated = true) ∧
    (∃ t, step (withOp busy writeOp) = .next t ∧ t.status.wign = true) ∧
    (∃ t, step (withOp (withStatus w) (.bus ⟨0x1000, 4, 1⟩ none)) = .next t ∧ t.status.wign = false) ∧
    (∃ t, step { withStatus w with turns := [.reset] } = .next t ∧ t.status.wign = false) :=
  ⟨⟨rfl, rfl⟩, ⟨_, rfl, rfl⟩, ⟨_, rfl, rfl⟩, ⟨_, rfl, rfl⟩⟩

/-- The completion flags change with a reserved command, with CONVERT, with the last engine step and with reset. -/
theorem witness_CompletionFlagsChangeOnlyAsNamed :
    let d : Status := { busy := false, done := true, err := false, wign := false, errCode := 0 }
    (last.status.busy = true ∧ last.eng.pix = 8191 ∧ ∃ t, engineTurn last = .next t ∧ t.stuck = false) ∧
    (busy.Inv ∧ ∃ t, step busy = .next t ∧ t.status.err = false) ∧
    (∃ t, step (withOp idle (.bus ⟨0x1000, 4, 2⟩ none)) = .next t ∧ t.status.errCode = 2) ∧
    (∃ t, step (withOp (withStatus d) (.bus ⟨0x1000, 4, 1⟩ none)) = .next t ∧ t.status.done = false) ∧
    (∃ t, step last = .next t ∧ t.status.done = true) ∧
    (∃ t, step { withStatus d with turns := [.reset] } = .next t ∧ t.status.done = false) :=
  ⟨⟨rfl, rfl, _, rfl, rfl⟩, ⟨witness_busy_Inv, _, rfl, rfl⟩, ⟨_, rfl, rfl⟩, ⟨_, rfl, rfl⟩, ⟨_, rfl, rfl⟩, ⟨_, rfl, rfl⟩⟩

theorem witness_ConfigurationFixedWhileBusy :
    ∃ t, step (withOp busy writeOp) = .next t ∧ busy.status.busy = true ∧ (withOp busy writeOp).nextTurn ≠ .reset :=
  ⟨_, rfl, rfl, by decide⟩

theorem witness_OutBelongsToTheEngine :
    (∃ t, exec .convert idle = .next t) ∧
    ∃ t, step (withOp idle writeOp) = .next t ∧ (withOp idle writeOp).status.busy = false ∧
      (withOp idle writeOp).nextTurn ≠ .reset := ⟨⟨_, rfl⟩, _, rfl, rfl, by decide⟩

theorem witness_SourceMemoryIsThePlatforms :
    Memory.wf cells ∧ (∃ t, step { idle with turns := [.platformWrite 0x1000 7] } = .next t ∧ t.source ≠ cells) ∧
    { idle with turns := [.platformWrite 0x1000 7] }.nextTurn = .platformWrite 0x1000 7 ∧
    { idle with turns := [.platformUnback 0x1000] }.nextTurn = .platformUnback 0x1000 :=
  ⟨witness_busy_Inv.memory, ⟨_, rfl, by decide⟩, rfl, rfl⟩

theorem witness_SourceChangeTouchesOnlyItsOwnBits :
    busy.Inv ∧ busy.status.busy = true ∧ inBuffer busy.regs 0x1003 = true ∧ busy.source.read 0x1003 ≠ some 7 ∧
    busy.source.read 0x1003 ≠ none ∧ busy.source.read 0x1003 = some 30 ∧ inBuffer busy.regs 0x100C = false ∧
    idle.status.busy = false := ⟨witness_busy_Inv, by decide⟩

/-- One of the writes that can meet the last engine step, and one of the commands. -/
theorem witness_WriteRacingTheLastStep :
    let s := { last with hosts := [{ prog := [writeOp, .bus ⟨0x1000, 4, 2⟩ none], pc := 0, vars := [] },
      { prog := [writeOp, .bus ⟨0x1000, 4, 2⟩ none], pc := 1, vars := [] }] }
    s.Inv ∧ s.backed ∧ s.status.busy = true ∧ s.stuck = false ∧ s.eng.pix = 8191 ∧ s.fetch 0 = some writeOp ∧
    decodeBus ⟨0x1018, 4, 30⟩ = .ok (.wrThreshold 30) ∧ (Instr.wrThreshold 30).isGated = true ∧
    s.fetch 1 = some (.bus ⟨0x1000, 4, 2⟩ none) ∧ decodeBus ⟨0x1000, 4, 2⟩ = .ok (.wrCmd 2) ∧
    (Instr.wrCmd 2).isGated = true := by
  refine ⟨Inv_congr witness_last_Inv rfl rfl rfl rfl rfl ?_ rfl, witness_backed.2, rfl, rfl, rfl, rfl, rfl, rfl, rfl, rfl, rfl⟩
  intro h hh
  simp only [List.mem_cons, List.not_mem_nil, or_false] at hh
  rcases hh with rfl | rfl <;> simp [HostAgent.varsWf, Cells.rising]

end Sys2Proof.Tests
end

/-! PROOFS. STATUS (R23 to R28) and reset (R39): what one step can do to STATUS, said once, and the statements about
BUSY, WIGN, DONE, ERR and ERR_CODE read off it. -/

namespace Sys2Proof.Machine

/-! ### STATUS after one instruction and after one pixel -/

/-- R77, R137: each gated instruction with BUSY = 1. -/
theorem exec_gated_busy {s : State} {i : Instr} (hb : s.status.busy = true) (hg : i.isGated = true) :
    exec i s = .next s.ignoreWrite := by
  cases i <;> simp only [Instr.isGated, Bool.false_eq_true] at hg
  all_goals exact congrArg _ (gatedWrite_busy hb _)

theorem exec_convert_idle {s : State} (hb : s.status.busy = false) : exec .convert s = .next (convertEffect s) :=
  congrArg _ (gatedWrite_idle hb _)

theorem exec_cmdReserved_idle {s : State} (hb : s.status.busy = false) (w : Word) :
    exec (.cmdReserved w) s = .next (s.raise .illegalCommand) :=
  congrArg _ (gatedWrite_idle hb _)

/-- NOP sets WIGN at most (R80), so it keeps DONE, ERR and ERR_CODE. -/
theorem exec_nop (s : State) : exec .nop s = .next (if s.status.busy = true then s.ignoreWrite else s) := rfl

/-- R81: STATUS where a conversion starts. -/
theorem convertEffect_status_valid {s : State} (hv : validShape s.regs = true) :
    (convertEffect s).status = { busy := true, done := false, err := false, wign := false, errCode := 0 } := by
  rcases convertEffect_cases s with ⟨-, h⟩ | ⟨hv', -⟩
  · rw [h]
  · simp [hv] at hv'

/-- R81, R133: STATUS where the shape is not valid. -/
theorem convertEffect_status_invalid {s : State} (hv : validShape s.regs = false) :
    (convertEffect s).status =
      { busy := s.status.busy, done := true, err := true, wign := false, errCode := 1 } := by
  rcases convertEffect_cases s with ⟨hv', -⟩ | ⟨-, h⟩
  · simp [hv] at hv'
  · rw [h]

/-- Either way CONVERT clears WIGN (R27, R81). -/
theorem convertEffect_wign (s : State) : (convertEffect s).status.wign = false := by
  cases hv : validShape s.regs
  · rw [convertEffect_status_invalid hv]
  · rw [convertEffect_status_valid hv]

/-- R99: after packing, STATUS changes at the last raster index alone. -/
theorem State.nextPixel_status (s : State) (i : Nat) :
    (s.nextPixel i).status = if i = 8191 then s.status.finished else s.status := apply_ite State.status ..

/-- R99: PIX after packing raster index i. -/
theorem State.nextPixel_pix (s : State) (i : Nat) : (s.nextPixel i).eng.pix = if i = 8191 then 0 else i + 1 :=
  apply_ite (fun t : State => t.eng.pix) ..

theorem packStep_status (s : State) (b : Bool) (x i : Nat) : (s.packStep b x i).status = s.status := by
  obtain ⟨o, e, h⟩ := packStep_frame s b x i
  rw [h]

/-- R99: only the last pixel of a conversion touches STATUS. -/
theorem pixelDone_status (s : State) (c : Byte × Byte × Byte) :
    (s.pixelDone c).status = if s.eng.pix = 8191 then s.status.finished else s.status := by
  rw [State.pixelDone, State.nextPixel_status, packStep_status]

/-- R99: PIX moves on by 1, from the last pixel to 0. -/
theorem pixelDone_pix (s : State) (c : Byte × Byte × Byte) :
    (s.pixelDone c).eng.pix = if s.eng.pix = 8191 then 0 else s.eng.pix + 1 :=
  State.nextPixel_pix _ _

/-- A step that is reset. -/
theorem step_reset {s : State} (h : s.nextTurn = .reset) : step s = .next s.dropTurn.resetEngine := by
  unfold step; rw [h]; rfl

/-! ### STATUS after one step -/

/-- The next turn is a host's, and it issues a transaction that decodes to `i`. -/
def State.hostIssues (s : State) (i : Instr) : Prop :=
  ∃ k x dst, s.nextTurn = .host k ∧ s.fetch k = some (.bus x dst) ∧ decodeBus x = .ok i

/-- The events of R24 to R28, each with what it does to STATUS on the way from `s` to `t`. -/
inductive StatusChange (s t : State) : Prop
  | none (hst : t.status = s.status)
  | writeIgnored (i : Instr) (hi : s.hostIssues i) (hg : i.isGated = true) (hb : s.status.busy = true)
      (hst : t.status = s.status.writeIgnored)
  | converted (hi : s.hostIssues (.wrCmd 1)) (hb : s.status.busy = false) (hst : t.status = (convertEffect s).status)
  | commandRefused (w : Word) (hw : w ≠ 0) (hi : s.hostIssues (.wrCmd w)) (hb : s.status.busy = false)
      (hst : t.status = s.status.raised .illegalCommand)
  | finished (hn : s.nextTurn = .engine) (hb : s.status.busy = true) (hp : s.eng.pix = 8191)
      (hst : t.status = s.status.finished)
  | reset (hn : s.nextTurn = .reset) (hst : t.status = Status.atReset)

theorem setSource_status (s : State) (m : Memory) (a : Nat) : (s.setSource m a).status = s.status := by
  obtain ⟨o, x, ch, h⟩ := setSource_frame s m a
  rw [h]

/-- Every step changes STATUS by one of the named events or not at all. -/
theorem step_statusChange {s t : State} (h : step s = .next t) : StatusChange s t := by
  rcases step_cases h with
    ⟨k, hn, h', o, r, n, rfl⟩ | ⟨k, x, d, i, hn, hf, hd, u, h', o, n, rfl, hu⟩ | ⟨hn, -, rfl⟩ | ⟨hn, -, -, -, rfl⟩ |
    ⟨hn, hb, -, o, e, st, rfl, hst⟩ | ⟨a, b, hn, rfl⟩ | ⟨a, hn, rfl⟩ | ⟨hn, rfl⟩
  · exact .none rfl
  · have hi : s.hostIssues i := ⟨k, x, d, hn, hf, hd⟩
    rcases hu with ⟨hg, hb, rfl⟩ | ⟨-, r, rfl⟩ | ⟨hb, rfl, rfl⟩ | ⟨hb, ⟨w, hw, rfl⟩, rfl⟩
    · exact .writeIgnored i hi hg hb rfl
    · exact .none rfl
    · exact .converted hi hb rfl
    · exact .commandRefused w hw hi hb rfl
  · exact .none rfl
  · exact .none rfl
  · rcases hst with rfl | ⟨hp, rfl⟩
    · exact .none rfl
    · exact .finished hn hb hp rfl
  · exact .none (setSource_status _ _ _)
  · exact .none (setSource_status _ _ _)
  · exact .reset hn rfl

/-- R24: BUSY rises only with a CONVERT that starts a conversion. -/
theorem busy_rises {s t : State} (h : step s = .next t) (hs : s.status.busy = false) (ht : t.status.busy = true) :
    s.hostIssues (.wrCmd 1) ∧ validShape s.regs = true := by
  cases step_statusChange h with
  | none hst => simp [hst, hs] at ht
  | writeIgnored i hi hg hb hst => simp [hs] at hb
  | converted hi hb hst =>
    refine ⟨hi, ?_⟩
    cases hv : validShape s.regs
    · simp [hst, convertEffect_status_invalid hv, hs] at ht
    · rfl
  | commandRefused w hw hi hb hst => simp [hst, Status.raised, hs] at ht
  | finished hn hb hp hst => simp [hs] at hb
  | reset hn hst => simp [hst, Status.atReset] at ht

/-- R24: BUSY falls only with the last engine step and with reset. -/
theorem busy_falls {s t : State} (h : step s = .next t) (hs : s.status.busy = true) (ht : t.status.busy = false) :
    s.nextTurn = .reset ∨ (s.nextTurn = .engine ∧ s.eng.pix = 8191) := by
  cases step_statusChange h with
  | none hst => simp [hst, hs] at ht
  | writeIgnored i hi hg hb hst => simp [hst, Status.writeIgnored, hs] at ht
  | converted hi hb hst => simp [hs] at hb
  | commandRefused w hw hi hb hst => simp [hs] at hb
  | finished hn hb hp hst => exact .inr ⟨hn, hp⟩
  | reset hn hst => exact .inl hn

/-- R27: WIGN rises only with a gated write while BUSY = 1. -/
theorem wign_rises {s t : State} (h : step s = .next t) (hs : s.status.wign = false) (ht : t.status.wign = true) :
    s.status.busy = true ∧ ∃ i, s.hostIssues i ∧ i.isGated = true := by
  cases step_statusChange h with
  | none hst => simp [hst, hs] at ht
  | writeIgnored i hi hg hb hst => exact ⟨hb, i, hi, hg⟩
  | converted hi hb hst => simp [hst, convertEffect_wign] at ht
  | commandRefused w hw hi hb hst => simp [hst, Status.raised, hs] at ht
  | finished hn hb hp hst => simp [hst, Status.finished, hs] at ht
  | reset hn hst => simp [hst, Status.atReset] at ht

/-- R27: WIGN falls only with an accepted CONVERT and with reset. -/
theorem wign_falls {s t : State} (h : step s = .next t) (hs : s.status.wign = true) (ht : t.status.wign = false) :
    s.nextTurn = .reset ∨ (s.status.busy = false ∧ s.hostIssues (.wrCmd 1)) := by
  cases step_statusChange h with
  | none hst => simp [hst, hs] at ht
  | writeIgnored i hi hg hb hst => simp [hst, Status.writeIgnored] at ht
  | converted hi hb hst => exact .inr ⟨hb, hi⟩
  | commandRefused w hw hi hb hst => simp [hst, Status.raised, hs] at ht
  | finished hn hb hp hst => simp [hst, Status.finished, hs] at ht
  | reset hn hst => exact .inl hn

/-- R26: a step keeps ERR_CODE at 0 while ERR = 0. -/
theorem errCode_zero_step {s t : State} (h : step s = .next t) (hs : s.status.err = false → s.status.errCode = 0)
    (ht : t.status.err = false) : t.status.errCode = 0 := by
  cases step_statusChange h with
  | none hst => rw [hst] at ht ⊢; exact hs ht
  | writeIgnored i hi hg hb hst => rw [hst] at ht ⊢; exact hs ht
  | converted hi hb hst =>
    cases hv : validShape s.regs
    · simp [hst, convertEffect_status_invalid hv] at ht
    · rw [hst, convertEffect_status_valid hv]
  | commandRefused w hw hi hb hst => simp [hst, Status.raised] at ht
  | finished hn hb hp hst => rw [hst] at ht ⊢; exact hs ht
  | reset hn hst => rw [hst]; rfl

/-- R25, R26, R28: a step changes DONE, ERR or ERR_CODE only as an accepted command other than NOP, the last engine step
or reset. -/
theorem completion_changes {s t : State} (h : step s = .next t)
    (hne : t.status.done ≠ s.status.done ∨ t.status.err ≠ s.status.err ∨ t.status.errCode ≠ s.status.errCode) :
    s.nextTurn = .reset ∨
    (s.nextTurn = .engine ∧ s.status.busy = true ∧ s.eng.pix = 8191 ∧ t.status = s.status.finished) ∨
    (s.status.busy = false ∧ ∃ w, w ≠ 0 ∧ s.hostIssues (.wrCmd w)) := by
  cases step_statusChange h with
  | none hst => simp [hst] at hne
  | writeIgnored i hi hg hb hst => simp [hst, Status.writeIgnored] at hne
  | converted hi hb hst => exact .inr (.inr ⟨hb, 1, by decide, hi⟩)
  | commandRefused w hw hi hb hst => exact .inr (.inr ⟨hb, w, hw, hi⟩)
  | finished hn hb hp hst => exact .inr (.inl ⟨hn, hb, hp, hst⟩)
  | reset hn hst => exact .inl hn

/-! ### The obligations -/

/-- Settles O49: the rise and the fall of BUSY over every step, and PIX and STATUS after one pixel. -/
theorem busyChangesOnlyAsNamed : Obligations.BusyChangesOnlyAsNamed := by
  refine ⟨fun s hb hv => ⟨_, exec_convert_idle hb, by rw [convertEffect_status_valid hv]⟩, ?pixel,
    fun s hb => engineTurn_pass (.inl hb), fun s hn => ⟨_, step_reset hn, rfl⟩, fun s t h => ⟨?rise, busy_falls h⟩⟩
  case pixel =>
    intro s t hb h ht
    obtain ⟨c, -, rfl⟩ := engineTurn_pixel h hb ht
    rw [State.nextDraw_eng, State.nextDraw_status, pixelDone_pix, pixelDone_status]
    by_cases hp : s.eng.pix = 8191
    · simp [hp, Status.finished]
    · simp [hp, hb]
  case rise =>
    intro hs ht
    obtain ⟨⟨k, x, dst, hn, hf, hd⟩, hv⟩ := busy_rises h hs ht
    exact ⟨k, x, dst, hn, hf, hd, hv⟩

/-- Settles O50: the rise and the fall of WIGN over every step. -/
theorem wignChangesOnlyAsNamed : Obligations.WignChangesOnlyAsNamed := by
  refine ⟨fun s i hb hg => exec_gated_busy hb hg, fun s hb => ⟨_, exec_convert_idle hb, convertEffect_wign s⟩,
    fun s hn => ⟨_, step_reset hn, rfl⟩, fun s t h => ⟨fun hs ht => ?_, wign_falls h⟩⟩
  obtain ⟨hb, i, ⟨k, x, dst, hn, hf, hd⟩, hg⟩ := wign_rises h hs ht
  exact ⟨hb, k, x, dst, i, hn, hf, hd, hg⟩

/-- Settles O51: STATUS after each named event, and `completion_changes` for every other step. -/
theorem completionFlagsChangeOnlyAsNamed : Obligations.CompletionFlagsChangeOnlyAsNamed := by
  refine ⟨fun s hb => ⟨_, exec_convert_idle hb, ?convert⟩,
    fun s w hb => ⟨_, exec_cmdReserved_idle hb w, rfl, rfl, rfl⟩, fun s => ⟨_, exec_nop s, ?nop⟩, ?last,
    fun s hn => ⟨_, step_reset hn, rfl, rfl, rfl⟩,
    fun s t hI h => ?code, fun s t h hne => ?step⟩
  case convert =>
    split_ifs with hv
    · simp [convertEffect_status_valid hv]
    · simp [convertEffect_status_invalid (Bool.eq_false_of_not_eq_true hv)]
  case nop => split_ifs <;> exact ⟨rfl, rfl, rfl⟩
  case last =>
    intro s t hb hp h ht
    obtain ⟨c, -, rfl⟩ := engineTurn_pixel h hb ht
    rw [State.nextDraw_status, pixelDone_status, if_pos hp]
    rfl
  case code =>
    obtain ⟨-, -, hcode⟩ := hI.status
    exact errCode_zero_step h hcode
  case step =>
    rcases completion_changes h hne with hn | ⟨hn, hb, hp, hst⟩ | ⟨hb, w, hw, k, x, dst, hn, hf, hd⟩
    · exact .inl hn
    · exact .inr (.inl ⟨hn, hb, hp, by rw [hst]; exact ⟨rfl, rfl, rfl⟩⟩)
    · exact .inr (.inr ⟨hb, k, x, dst, w, hn, hf, hd, hw⟩)

/-- A byte of OUT after reset is its free value (R152). -/
theorem outByte_reset {k : Nat} (hk : k < 1024) : outByte State.reset k = Config.outAtReset 0 k := by
  simp [outByte, State.reset, outAfterReset, hk]

/-- Settles O56: with SRC_WIDTH = 0 the shape is not valid, so CONVERT after reset records code 1 (R153). -/
theorem resetValues : Obligations.ResetValues := by
  have hconv : exec .convert State.reset = .next (convertEffect State.reset) := exec_convert_idle rfl
  refine ⟨rfl, rfl, rfl, rfl, fun k hk => outByte_reset hk, rfl, rfl, rfl, engineTurn_pass (.inl rfl), _, _, hconv,
    rfl, ?_, rfl⟩
  have hst := convertEffect_status_invalid (s := State.reset) rfl
  rw [State.returnData_readData, hst]
  decide

end Sys2Proof.Machine

/-! PROOFS. The access rule (R49): which transactions decode, that a host's turn with any other is refused (R138), and
that an access the rule admits stays on its side of every region boundary. -/

namespace Sys2Proof.Machine

/-- R49: the size of an access without a problem divides 4 and divides its offset. -/
theorem size_dvd_of_legal {off : BitVec 12} {n : Nat} (h : accessProblem off n = none) : n ∣ 4 ∧ n ∣ off.toNat := by
  rcases accessProblem_eq_none.1 h with ⟨-, rfl, ha⟩ | ⟨-, hn, ha⟩
  · exact ⟨Nat.dvd_refl 4, Nat.dvd_of_mod_eq_zero ha⟩
  · refine ⟨?_, Nat.dvd_of_mod_eq_zero ha⟩
    rcases hn with rfl | rfl | rfl <;> decide

/-- An access that starts below a word-aligned boundary ends at or below it: the boundary, like the offset, is a
multiple of the size. -/
theorem access_end_le {off : BitVec 12} {n b : Nat} (h : accessProblem off n = none) (hb : 4 ∣ b)
    (hlt : off.toNat < b) : off.toNat + n ≤ b := by
  obtain ⟨h4, hoff⟩ := size_dvd_of_legal h
  have hmod : off.toNat ≡ b [MOD n] :=
    (Nat.modEq_zero_iff_dvd.2 hoff).trans (Nat.modEq_zero_iff_dvd.2 (h4.trans hb)).symm
  exact hmod.add_le_of_lt hlt

/-- A transaction decodes exactly when its access has no problem: every descriptor has a row. -/
theorem decodes_iff_legal {t : Txn} : (∃ i, decodeBus t = .ok i) ↔ accessProblem t.off t.size = none :=
  ⟨fun ⟨_, h⟩ => (decodeBus_eq_ok.1 h).1, fun h => ⟨_, decodeBus_of_row h rfl⟩⟩

/-- A host's turn with a transaction that does not decode. -/
theorem hostTurn_bus_refused {s : State} {k : Nat} {t : Txn} {dst : Option Nat} {e : TxnError}
    (hf : s.fetch k = some (.bus t dst)) (hd : decodeBus t = .error e) :
    hostTurn s k = .refused (.badTransaction e) := by
  unfold hostTurn; rw [hf]; simp only [hostTransaction, hd]

/-- A step with a transaction that does not decode (R138). -/
theorem step_bus_refused {s : State} {k : Nat} {t : Txn} {dst : Option Nat} {e : TxnError} (hn : s.nextTurn = .host k)
    (hf : s.fetch k = some (.bus t dst)) (hd : decodeBus t = .error e) : step s = .refused (.badTransaction e) :=
  (step_host s k hn).trans (hostTurn_bus_refused (s := s.dropTurn) hf hd)

/-- Settles O3: decoding fails for an access problem alone, the host's turn hands on its reason, and every region
boundary is a multiple of 4. -/
theorem illegalTransactionsRefused : Obligations.IllegalTransactionsRefused := by
  refine fun t => ⟨decodes_iff_legal.trans accessProblem_eq_none, ?refused, ?boundary⟩
  case refused =>
    intro s k dst hno hn hf
    cases hd : decodeBus t with
    | ok i => exact absurd ⟨i, hd⟩ hno
    | error e => exact ⟨e, step_bus_refused hn hf hd⟩
  case boundary =>
    intro i hd b hb hlt
    have hdvd : ∀ c ∈ [0x01C, 0x400, 0x800, 0x1000], 4 ∣ c := by decide
    exact access_end_le (decodes_iff_legal.1 ⟨i, hd⟩) (hdvd b hb) hlt

end Sys2Proof.Machine

/-! PROOFS. Encodings by word and by notation: the classes of command words (R69) and the pseudo-instructions of host
programs (R76). -/

namespace Sys2Proof

/-- R69: every word but 0 and 1 is a reserved command. -/
theorem decodeCmd_reserved {w : Word} (h0 : w ≠ 0x00000000) (h1 : w ≠ 0x00000001) : decodeCmd w = .cmdReserved w := by
  have hrow : decodeCmdRow w = .cmdReserved := (if_neg h0).trans (if_neg h1)
  rw [decodeCmd, hrow]

end Sys2Proof

namespace Sys2Proof.Machine

/-- R79: with BUSY = 1 a write to CMD sets WIGN, whatever its word. -/
theorem exec_wrCmd_busy {s : State} (hb : s.status.busy = true) (w : Word) : exec (.wrCmd w) s = .next s.ignoreWrite :=
  exec_gated_busy hb rfl

/-! ### Assembly -/

/-- R75: a program of register writes assembles line by line to their transactions. -/
theorem assembleProgram_writes (ws : List (BitVec 12 × Word)) :
    assembleProgram (ws.map fun x => .wr x.1 x.2) = some (ws.map fun x => .bus (busWrite x.1 x.2) none) := by
  have hops : (ws.map fun x => AsmLine.wr x.1 x.2).filter AsmLine.isOp = ws.map fun x => AsmLine.wr x.1 x.2 :=
    List.filter_eq_self.2 fun line h => by
      obtain ⟨x, -, rfl⟩ := List.mem_map.1 h
      rfl
  rw [assembleProgram, hops, List.mapM_map]
  exact List.mapM_pure

/-- R21, R75: the transactions of the writes to the configuration registers. -/
theorem busWrite_config (v : Word) :
    busWrite offSrcBase v = ⟨0x1008, 4, v⟩ ∧ busWrite offSrcLen v = ⟨0x100C, 4, v⟩ ∧
    busWrite offSrcWidth v = ⟨0x1010, 4, v⟩ ∧ busWrite offSrcHeight v = ⟨0x1014, 4, v⟩ ∧
    busWrite offThreshold v = ⟨0x1018, 4, v⟩ := ⟨rfl, rfl, rfl, rfl, rfl⟩

/-- A label at the head of a program is at statement 0. -/
@[simp] theorem labelAt_label_self (l : Nat) (rest : List AsmLine) : labelAt (.label l :: rest) l = some 0 := if_pos rfl

/-- A branch on 0 in a program that begins with its label goes to statement 0. -/
theorem op_bz_first_label (l r : Nat) (mask : Word) (rest : List AsmLine) :
    (AsmLine.bz r mask l).op (.label l :: rest) = some (.bz r mask 0) := by
  simp [AsmLine.op]

/-- R76: `wait_done` is a read of STATUS and a branch back to it. -/
theorem assembleProgram_asmWaitDone (r l : Nat) :
    assembleProgram (asmWaitDone r l) = some [.bus (busRead offStatus 4) (some r), .bz r 0x2 0] := by
  have hops : (asmWaitDone r l).filter AsmLine.isOp = [.rd offStatus r, .bz r 0x2 l] := rfl
  have hrd : (AsmLine.rd offStatus r).op (asmWaitDone r l) = some (.bus (busRead offStatus 4) (some r)) := rfl
  have hbz : (AsmLine.bz r 0x2 l).op (asmWaitDone r l) = some (.bz r 0x2 0) := op_bz_first_label l r 0x2 _
  rw [assembleProgram, hops, List.mapM_cons, List.mapM_cons, hrd, hbz]
  rfl

/-- R75: the descriptor of a read of OUT+k is row RD_OUT of R68 at index k. -/
theorem busRead_outOffset (k : BitVec 10) (n : Nat) : busRead (outOffset k) n = ⟨0b001#3 ++ k, n, 0⟩ := by
  have hd : (outOffset k).setWidth 13 = 0b001#3 ++ k := by
    apply BitVec.eq_of_toNat_eq
    rw [BitVec.toNat_setWidth_of_le (by decide), outOffset, toNat_desc_append, toNat_desc_append]
    rfl
  rw [busRead, hd]

/-- R76: the read of `rdout k` decodes to RD_OUT of one byte. -/
theorem decodeBus_busRead_out (k : BitVec 10) : decodeBus (busRead (outOffset k) 1) = .ok (.rdOut k .b1) := by
  rw [busRead_outOffset]
  exact decodeBus_out (n := .b1) (Nat.mod_one _) false _ rfl 0

/-! ### The obligations -/

/-- Settles O6: the rows of R69, and that the gate of R77 comes before the word is decoded. -/
theorem commandWordsDecode : Obligations.CommandWordsDecode :=
  ⟨rfl, rfl, fun _ h0 h1 => decodeCmd_reserved h0 h1,
    fun _ v w hb => (exec_wrCmd_busy hb v).trans (exec_wrCmd_busy hb w).symm⟩

/-- Settles O59: three expansions are register writes, `wait_done` branches to its own first statement, and `rdout`
reads one byte of OUT. -/
theorem pseudoInstructionsExpand : Obligations.PseudoInstructionsExpand := by
  refine ⟨assembleProgram_writes [(offCmd, 0x00000000)], assembleProgram_writes [(offCmd, 0x00000001)],
    assembleProgram_asmWaitDone, fun b n w h t => ?config, fun k r => ⟨_, ?rdout, decodeBus_busRead_out k⟩⟩
  case config =>
    have hw := assembleProgram_writes
      [(offSrcBase, b), (offSrcLen, n), (offSrcWidth, w), (offSrcHeight, h), (offThreshold, t)]
    simpa only [asmConfig, List.map_cons, List.map_nil, busWrite_config] using hw
  case rdout => rfl

end Sys2Proof.Machine

/-! PROOFS. The host's operations (R77 to R98): what each row's instruction does to the state, the transaction that
carries it, and the effects of the command words. -/

namespace Sys2Proof.Machine

/-! ### The rows with sizes -/

/-- R95: an aligned read of OUT completes with its data word. -/
theorem exec_rdOut_aligned {k : BitVec 10} {n : Size} (h : k.toNat % n.bytes = 0) (s : State) :
    exec (.rdOut k n) s = .next (s.returnData (outData s k.toNat n.bytes)) :=
  ifLegal_out h

/-- R95, R66: with BUSY = 0 the data word of a read of OUT is its bytes, little-endian, with zeros above. -/
theorem outData_getLsbD_idle {s : State} (hb : s.status.busy = false) (k : Nat) (n : Size) (j : Nat) :
    (outData s k n.bytes).getLsbD j =
      (decide (j < 8 * n.bytes) && (outByte s (k + j / 8)).getLsbD (j % 8)) := by
  have hn : n.bytes ≤ 4 := by rcases n.bytes_legal with h | h | h <;> omega
  have hw : outData s k n.bytes = assemble (fun m => outByte s (k + m)) n.bytes := if_neg (by simp [hb])
  rw [hw, assemble_getLsbD _ _ _ hn]

/-! ### Gated writes -/

/-- R77: with BUSY = 0 a gated write completes with its effect. -/
theorem next_gatedWrite_idle {s : State} (hb : s.status.busy = false) (f : State → State) :
    (.next (gatedWrite s f) : Host.Outcome State Fault Refusal) = .next (f s) :=
  congrArg _ (gatedWrite_idle hb f)

/-- R65: the operand of a write to THRESHOLD is the data word modulo 256. -/
theorem thresholdOperand_eq_ofNat (d : Word) : thresholdOperand d = BitVec.ofNat 8 (d.toNat % 256) := by
  apply BitVec.eq_of_toNat_eq
  rw [thresholdOperand, BitVec.toNat_setWidth, BitVec.toNat_ofNat, Nat.mod_mod]

/-! ### Commands -/

/-- R79: a write to CMD does in every state what the command its word encodes does. -/
theorem exec_decodeCmd (w : Word) (s : State) : exec (decodeCmd w) s = exec (.wrCmd w) s := by
  show exec (decodeCmd w) s = .next (gatedWrite s (commandEffect w))
  unfold decodeCmd commandEffect
  cases decodeCmdRow w <;> rfl

/-- R82, R136: a write to CMD of a reserved word, with BUSY = 0. -/
theorem exec_wrCmd_reserved {s : State} (hb : s.status.busy = false) {w : Word} (h0 : w ≠ 0x00000000)
    (h1 : w ≠ 0x00000001) : exec (.wrCmd w) s = .next (s.raise .illegalCommand) := by
  rw [← exec_decodeCmd, decodeCmd_reserved h0 h1, exec_cmdReserved_idle hb]

/-! ### The obligations -/

/-- Settles O14: `Status.word_getLsbD` at each field's bits; the last clause is the invariant's on BUSY and DONE. -/
theorem statusReadLayout : Obligations.StatusReadLayout := by
  refine ⟨fun d => decodeBus_register 0x0004 .rdStatus d rfl rfl, fun s => ⟨s.status.word, rfl, ?_⟩⟩
  simp only [Status.word_getLsbD]
  refine ⟨rfl, rfl, rfl, rfl, fun j hj => ?code, fun j h4 h8 => ?low, fun j h12 => ?high, fun hI => ?excl⟩
  case code =>
    have hne : 8 + j ≠ 0 ∧ 8 + j ≠ 1 ∧ 8 + j ≠ 2 ∧ 8 + j ≠ 3 ∧ 8 + j < 12 := by omega
    simp [hne]
  case low => interval_cases j <;> rfl
  case high =>
    have hne : j ≠ 0 ∧ j ≠ 1 ∧ j ≠ 2 ∧ j ≠ 3 ∧ ¬ j < 12 := by omega
    simp [hne]
  case excl =>
    rintro ⟨hbusy, hdone⟩
    obtain ⟨hexcl, -, -⟩ := hI.status
    obtain ⟨hnot, -⟩ := hexcl hbusy
    exact absurd (hnot.symm.trans hdone) (by decide)

/-- Settles O15: the access is legal (R49), and the data word is assembled from OUT's bytes when BUSY = 0. -/
theorem outReadReturnsTheBuffer : Obligations.OutReadReturnsTheBuffer := fun s k n d h =>
  ⟨decodeBus_out h false 0b001 rfl d, outData s k.toNat n.bytes, exec_rdOut_aligned h s,
    fun hb j => outData_getLsbD_idle hb k.toNat n j⟩

/-- Settles O13: each read returns its register whatever BUSY is; a reserved offset's access is legal (R49). -/
theorem registerReadsReturnTheRegister : Obligations.RegisterReadsReturnTheRegister := by
  refine ⟨fun d => ⟨decodeBus_register 0x0000 .rdCmd d rfl rfl, decodeBus_register 0x0008 .rdSrcBase d rfl rfl,
      decodeBus_register 0x000C .rdSrcLen d rfl rfl, decodeBus_register 0x0010 .rdSrcWidth d rfl rfl,
      decodeBus_register 0x0014 .rdSrcHeight d rfl rfl, decodeBus_register 0x0018 .rdThreshold d rfl rfl⟩,
    fun s => ⟨rfl, rfl, rfl, rfl, rfl, rfl, fun off n d h => ⟨?decodes, ?zero⟩⟩⟩
  case decodes => exact decodeBus_reserved h false 0b0 rfl d
  case zero => exact ifLegal_reserved (s.returnData 0) off n h

/-- Settles O19: the five writes are gated (R77), and THRESHOLD's operand is the data word modulo 256. -/
theorem configWritesTakeEffect : Obligations.ConfigWritesTakeEffect := by
  refine fun s d => ⟨⟨decodeBus_register 0x1008 .wrSrcBase d rfl rfl, decodeBus_register 0x100C .wrSrcLen d rfl rfl,
    decodeBus_register 0x1010 .wrSrcWidth d rfl rfl, decodeBus_register 0x1014 .wrSrcHeight d rfl rfl,
    decodeBus_register 0x1018 .wrThreshold d rfl rfl⟩, fun hb => ?stored, fun hb i hi => ?ignored⟩
  case stored =>
    rw [← thresholdOperand_eq_ofNat]
    exact ⟨next_gatedWrite_idle hb (·.setSrcBase d), next_gatedWrite_idle hb (·.setSrcLen d),
      next_gatedWrite_idle hb (·.setSrcWidth d), next_gatedWrite_idle hb (·.setSrcHeight d),
      next_gatedWrite_idle hb (·.setThreshold (thresholdOperand d))⟩
  case ignored =>
    have hgated : ∀ i ∈ [Instr.wrSrcBase d, .wrSrcLen d, .wrSrcWidth d, .wrSrcHeight d, .wrThreshold d],
        i.isGated = true := by simp [Instr.isGated]
    exact exec_gated_busy hb (hgated i hi)

/-- Settles O21: a legal access to a row without effect goes on with the state as it is (R49). -/
theorem readOnlyWritesChangeNothing : Obligations.ReadOnlyWritesChangeNothing := fun s d =>
  ⟨⟨decodeBus_register 0x1004 .wrStatus d rfl rfl, rfl⟩,
    fun _ _ h => ⟨decodeBus_out h true 0b101 rfl d, ifLegal_out h⟩,
    fun off n h => ⟨decodeBus_reserved h true 0b1 rfl d, ifLegal_reserved s off n h⟩⟩

/-- Settles O23: the gate comes first (R77), and then both instructions have one effect. -/
theorem writeCmdPerformsItsCommand : Obligations.WriteCmdPerformsItsCommand := fun s d =>
  ⟨decodeBus_register 0x1000 .wrCmd d rfl rfl, fun hb => exec_wrCmd_busy hb d,
    gatedWrite s (commandEffect d), rfl, exec_decodeCmd d s⟩

/-- Settles O24: NOP is gated like any command, and its effect is none. -/
theorem nopChangesNothing : Obligations.NopChangesNothing :=
  ⟨rfl, fun _ => ⟨fun hb => next_gatedWrite_idle hb nopEffect, fun hb => exec_gated_busy hb rfl⟩⟩

/-- Settles O25: ValidShape (R133) decides between the two effects of an accepted CONVERT. -/
theorem convertStartsOrRejects : Obligations.ConvertStartsOrRejects := by
  refine ⟨rfl, fun s hb => ?_⟩
  rw [exec_convert_idle hb, ← validShape_iff]
  rcases convertEffect_cases s with ⟨hv, h⟩ | ⟨hv, h⟩
  · exact ⟨fun _ => congrArg _ h, fun hn => absurd hv hn⟩
  · rw [hb] at h
    exact ⟨fun hv' => absurd (hv.symm.trans hv') (by decide), fun _ => congrArg _ h⟩

/-- Settles O26: a reserved word raises ILLEGAL_COMMAND, as a command and as a write to CMD. -/
theorem reservedCommandRaises : Obligations.ReservedCommandRaises := fun _ w hb h0 h1 =>
  ⟨decodeCmd_reserved h0 h1, exec_cmdReserved_idle hb w, exec_wrCmd_reserved hb h0 h1⟩

end Sys2Proof.Machine

/-! PROOFS. Step 1, the index maps (R104 to R109): the rule of both axes said once, its range and order, where CENTER
and FLOOR agree, and what CENTER does with a tie. -/

namespace Sys2Proof.Machine

/-! ### One rule for both axes -/

/-- The index of R104 and R105 on an axis of `n` destination pixels, for `w` source pixels. -/
def axisMap (n : Nat) : NnMap → (w d : Nat) → Nat
  | .center, w, d => (2 * d + 1) * w / (2 * n)
  | .floor, w, d => d * w / n

/-- Columns: the destination is 128 pixels wide. -/
theorem mapX_eq_axisMap (m : NnMap) (w dx : Nat) : mapX m w dx = axisMap 128 m w dx := by cases m <;> rfl

/-- Rows: the destination is 64 pixels high. -/
theorem mapY_eq_axisMap (m : NnMap) (h dy : Nat) : mapY m h dy = axisMap 64 m h dy := by cases m <;> rfl

/-- R106: both maps are non-decreasing. -/
theorem axisMap_mono (n : Nat) (m : NnMap) (w : Nat) {d d' : Nat} (h : d ≤ d') :
    axisMap n m w d ≤ axisMap n m w d' := by
  cases m with
  | center => exact Nat.div_le_div_right (Nat.mul_le_mul_right w (Nat.succ_le_succ (Nat.mul_le_mul_left 2 h)))
  | floor => exact Nat.div_le_div_right (Nat.mul_le_mul_right w h)

/-! ### Where the maps agree (R109) -/

/-- R109: where each source pixel covers `k` destination pixels, both maps take `d` to `d` div `k`. -/
theorem axisMap_of_mul (m : NnMap) {k w : Nat} (hw : 0 < w) (d : Nat) : axisMap (k * w) m w d = d / k := by
  cases m with
  | center =>
    have hd : (2 * d + 1) / 2 = d := by omega
    rw [axisMap, ← Nat.mul_assoc, Nat.mul_div_mul_right _ _ hw, ← Nat.div_div_eq_div_mul, hd]
  | floor => exact Nat.mul_div_mul_right d k hw

/-- R109: the same for a divisor `k` of the destination's size. -/
theorem axisMap_div_of_dvd {n k : Nat} (hn : 0 < n) (hk : k ∣ n) (m : NnMap) (d : Nat) :
    axisMap n m (n / k) d = d / k := by
  have hpos : 0 < n / k := Nat.div_pos (Nat.le_of_dvd hn hk) (Nat.pos_of_dvd_of_pos hk hn)
  have hmap := axisMap_of_mul m (k := k) hpos d
  rwa [Nat.mul_div_cancel' hk] at hmap

/-- R109: at the destination's own size both maps are the identity. -/
theorem axisMap_self {n : Nat} (hn : 0 < n) (m : NnMap) (d : Nat) : axisMap n m n d = d := by
  simpa using axisMap_div_of_dvd hn (one_dvd n) m d

/-- CENTER stands half a source step, `w / (2 * n)`, right of FLOOR: the two agree where the remainder of FLOOR's
division leaves room for it. -/
theorem axisMap_center_eq_floor_iff {n : Nat} (hn : 0 < n) (w d : Nat) :
    axisMap n .center w d = axisMap n .floor w d ↔ 2 * (d * w % n) + w < 2 * n := by
  have hsplit : (2 * d + 1) * w = 2 * (d * w % n) + w + 2 * n * (d * w / n) :=
    calc (2 * d + 1) * w = 2 * (d * w) + w := by ring
      _ = 2 * (d * w % n + n * (d * w / n)) + w := by rw [Nat.mod_add_div]
      _ = _ := by ring
  simp only [axisMap]
  rw [hsplit, Nat.add_mul_div_left _ _ (by omega), Nat.add_eq_right, Nat.div_eq_zero_iff_lt (by omega)]

/-- Some multiple of `w` leaves the remainder `n - gcd w n` modulo `n` (no multiple leaves a greater one): Bézout's
factor of `w`, negated. -/
theorem exists_mul_mod_eq_sub_gcd {n : Nat} (hn : 0 < n) (w : Nat) : ∃ d < n, d * w % n = n - Nat.gcd w n := by
  have hg : 0 < Nat.gcd w n := Nat.gcd_pos_of_pos_right w hn
  have hgn : Nat.gcd w n ≤ n := Nat.le_of_dvd hn (Nat.gcd_dvd_right w n)
  have hbezout : (Nat.gcd w n : ℤ) = w * w.gcdA n + n * w.gcdB n := Nat.gcd_eq_gcd_ab w n
  obtain ⟨d, hd, hdmod⟩ := Int.existsUnique_equiv_nat (-w.gcdA n) (b := n) (by exact_mod_cast hn)
  obtain ⟨q, hq⟩ : n ∣ d * w + Nat.gcd w n := by
    obtain ⟨e, he⟩ := hdmod.symm.dvd
    have hsum : ((d * w + Nat.gcd w n : ℕ) : ℤ) = n * (e * w + w.gcdB n) := by
      push_cast
      linear_combination w * he + hbezout
    exact Int.natCast_dvd_natCast.1 ⟨_, hsum⟩
  obtain ⟨p, rfl⟩ : ∃ p, q = p + 1 := Nat.exists_eq_succ_of_ne_zero (by rintro rfl; omega)
  have hdw : d * w = n - Nat.gcd w n + n * p := by
    rw [Nat.mul_succ] at hq
    omega
  exact ⟨d, by exact_mod_cast hd, by rw [hdw, Nat.add_mul_mod_self_left, Nat.mod_eq_of_lt (by omega)]⟩

/-- R109: the maps agree on the whole axis exactly where the source's size divides the destination's. Agreement at the
greatest remainder leaves `w` less than twice its common divisor with the axis, so `w` is that divisor. -/
theorem axisMap_agree_iff_dvd {l w : Nat} (hw : 1 ≤ w) :
    (∀ d, d ≤ l → axisMap (l + 1) .center w d = axisMap (l + 1) .floor w d) ↔ w ∣ l + 1 := by
  have hn : 0 < l + 1 := Nat.succ_pos l
  constructor
  · intro h
    obtain ⟨d, hd, hmod⟩ := exists_mul_mod_eq_sub_gcd hn w
    have hroom := (axisMap_center_eq_floor_iff hn w d).1 (h d (Nat.le_of_lt_succ hd))
    have hgn : Nat.gcd w (l + 1) ≤ l + 1 := Nat.le_of_dvd hn (Nat.gcd_dvd_right w _)
    have hlt : w < 2 * Nat.gcd w (l + 1) := by omega
    have hwg : w = Nat.gcd w (l + 1) := Nat.eq_of_dvd_of_lt_two_mul (by omega) (Nat.gcd_dvd_left w _) hlt
    exact Nat.gcd_eq_left_iff_dvd.1 hwg.symm
  · rintro ⟨k, hk⟩ d -
    rw [hk, Nat.mul_comm, axisMap_of_mul _ hw, axisMap_of_mul _ hw]

/-- R109: from twice the destination's size on the maps differ at 0. -/
theorem axisMap_zero_ne {n w : Nat} (hn : 0 < n) (hw : 2 * n ≤ w) :
    axisMap n .center w 0 ≠ axisMap n .floor w 0 := by
  rw [Ne, axisMap_center_eq_floor_iff hn]
  omega

/-! ### Ties (R107) -/

/-- R107: every centre lies on a boundary exactly where the first one does. -/
theorem forall_tie_iff {b l : Nat} (w : Nat) : (∀ d, d ≤ l → b ∣ (2 * d + 1) * w) ↔ b ∣ w :=
  ⟨fun h => by simpa using h 0 (Nat.zero_le l), fun h d _ => Dvd.dvd.mul_left h (2 * d + 1)⟩

/-- R107: a centre on the boundary below source pixel `u` takes `u`. -/
theorem axisMap_center_of_tie {n : Nat} (hn : 0 < n) {w d u : Nat} (h : (2 * d + 1) * w = 2 * n * u) :
    axisMap n .center w d = u :=
  Nat.div_eq_of_eq_mul_right (by omega) h

/-! ### The obligations -/

/-- Settles O28: range and buffer are the model's own lemmas, and the order is `axisMap_mono`. -/
theorem mapsStayInRange : Obligations.MapsStayInRange := by
  intro m r hv
  obtain ⟨hw, hh, -, hend⟩ := (validShape_iff r).1 hv
  have hX : ∀ dx, dx ≤ 127 → mapX m r.srcWidth.toNat dx < r.srcWidth.toNat := fun _ h => mapX_lt m hw h
  have hY : ∀ dy, dy ≤ 63 → mapY m r.srcHeight.toNat dy < r.srcHeight.toNat := fun _ h => mapY_lt m hh h
  refine ⟨fun dx h => Nat.le_sub_one_of_lt (hX dx h), fun dy h => Nat.le_sub_one_of_lt (hY dy h),
    fun dx dx' h => ?_, fun dy dy' h => ?_, fun dx dy c hx hy hc => ?_⟩
  · simp only [mapX_eq_axisMap]
    exact axisMap_mono 128 m _ h
  · simp only [mapY_eq_axisMap]
    exact axisMap_mono 64 m _ h
  · obtain ⟨hlo, hhi⟩ := srcAddr_inBuffer hv (hX dx hx) (hY dy hy) hc
    exact ⟨hlo, Nat.le_sub_one_of_lt hhi, hhi.trans_le hend⟩

/-- Settles O29: each clause is the rule of one axis at 128 or 64 destination pixels. -/
theorem mapsAgreeForDivisors : Obligations.MapsAgreeForDivisors := by
  have hidX : ∀ m dx, mapX m 128 dx = dx := fun m dx =>
    (mapX_eq_axisMap m 128 dx).trans (axisMap_self (by decide) m dx)
  have hidY : ∀ m dy, mapY m 64 dy = dy := fun m dy =>
    (mapY_eq_axisMap m 64 dy).trans (axisMap_self (by decide) m dy)
  refine ⟨fun m => ⟨fun dx _ => hidX m dx, fun dy _ => hidY m dy⟩, fun p img t x y _ _ => ?bit, ?_⟩
  case bit => rw [destBit, hidX, hidY]
  simp only [mapX_eq_axisMap, mapY_eq_axisMap]
  exact ⟨fun w hw => axisMap_agree_iff_dvd hw, fun h hh => axisMap_agree_iff_dvd hh,
    fun m k dx hk _ => axisMap_div_of_dvd (by decide) hk m dx,
    fun m k dy hk _ => axisMap_div_of_dvd (by decide) hk m dy,
    fun w hw => axisMap_zero_ne (by decide) hw, fun h hh => axisMap_zero_ne (by decide) hh⟩

/-- Settles O30: a tie anywhere on the axis is an exact division. -/
theorem centerTiesTakeTheHigherIndex : Obligations.CenterTiesTakeTheHigherIndex := by
  have hX : ∀ w dx u, (2 * dx + 1) * w = 256 * u → mapX .center w dx = u := fun w dx u h =>
    (mapX_eq_axisMap .center w dx).trans (axisMap_center_of_tie (by decide) h)
  have hY : ∀ h dy u, (2 * dy + 1) * h = 128 * u → mapY .center h dy = u := fun h dy u ht =>
    (mapY_eq_axisMap .center h dy).trans (axisMap_center_of_tie (by decide) ht)
  exact ⟨forall_tie_iff, forall_tie_iff, hX, hY, fun dx => hX 256 dx _ (Nat.mul_comm _ _)⟩

end Sys2Proof.Machine

/-! PROOFS. Steps 2 and 3 (R112 to R119): the range and agreement of the two averages, the thresholds that no average
exceeds, and the order that the threshold puts on the bits of the result. -/

namespace Sys2Proof.Machine

/-! ### The averages (R115, R116) -/

/-- R115: the range of WRAP8. -/
theorem avg_wrap8_le (r g b : Byte) : avg .wrap8 r g b ≤ 85 :=
  Nat.div_le_of_le_mul (Nat.le_of_lt_succ (Nat.mod_lt _ (by decide)))

/-- R115: the averages are equal exactly when the sum fits in a byte. -/
theorem avg_wrap8_eq_wide_iff (r g b : Byte) :
    avg .wrap8 r g b = avg .wide r g b ↔ r.toNat + g.toNat + b.toNat ≤ 255 := by
  simp only [avg]
  omega

/-- R115: a sum of 256 or more loses one or two times 256 under WRAP8. -/
theorem avg_wrap8_of_carry (r g b : Byte) (h : 256 ≤ r.toNat + g.toNat + b.toNat) :
    let q := (r.toNat + g.toNat + b.toNat) / 256
    (q = 1 ∨ q = 2) ∧ avg .wrap8 r g b = (r.toNat + g.toNat + b.toNat - 256 * q) / 3 ∧
      avg .wrap8 r g b < avg .wide r g b := by
  have := r.isLt
  have := g.isLt
  have := b.isLt
  simp only [avg]
  omega

/-- WIDE takes a grey pixel to its channel value. -/
theorem avg_wide_grey {v : Nat} (hv : v ≤ 255) :
    avg .wide (BitVec.ofNat 8 v) (BitVec.ofNat 8 v) (BitVec.ofNat 8 v) = v := by
  simp only [avg, BitVec.toNat_ofNat]
  omega

/-- So does WRAP8 where the three channels fit in a byte. -/
theorem avg_wrap8_grey {v : Nat} (hv : v ≤ 85) :
    avg .wrap8 (BitVec.ofNat 8 v) (BitVec.ofNat 8 v) (BitVec.ofNat 8 v) = v := by
  have hsum : (BitVec.ofNat 8 v).toNat + (BitVec.ofNat 8 v).toNat + (BitVec.ofNat 8 v).toNat ≤ 255 := by
    simp only [BitVec.toNat_ofNat]
    omega
  rw [(avg_wrap8_eq_wide_iff _ _ _).2 hsum, avg_wide_grey (by omega)]

/-- R116: an average depends on the sum of the channels alone. -/
theorem avg_congr_sum (m : AvgMode) {r g b r' g' b' : Byte}
    (h : r.toNat + g.toNat + b.toNat = r'.toNat + g'.toNat + b'.toNat) : avg m r g b = avg m r' g' b' := by
  cases m <;> simp only [avg, h]

/-! ### The threshold (R117) -/

/-- A pixel's bit is set exactly when its average exceeds the threshold. -/
theorem pixelBit_iff (m : AvgMode) (t : Byte) (c : Byte × Byte × Byte) :
    pixelBit m t c = true ↔ t.toNat < avg m c.1 c.2.1 c.2.2 := decide_eq_true_iff

/-- R118: no average exceeds a dead threshold. -/
theorem avg_le_of_dead {m : AvgMode} {t : Byte} (ht : t = 255 ∨ (m = .wrap8 ∧ 85 ≤ t.toNat)) (r g b : Byte) :
    avg m r g b ≤ t.toNat := by
  obtain rfl | ⟨rfl, ht⟩ := ht
  · exact avg_le m r g b
  · exact (avg_wrap8_le r g b).trans ht

/-- R118: so no pixel's bit is set under it. -/
theorem pixelBit_dead {m : AvgMode} {t : Byte} (ht : t = 255 ∨ (m = .wrap8 ∧ 85 ≤ t.toNat))
    (c : Byte × Byte × Byte) : pixelBit m t c = false :=
  Bool.eq_false_iff.2 fun h => (avg_le_of_dead ht c.1 c.2.1 c.2.2).not_gt ((pixelBit_iff m t c).1 h)

/-- R119: a bit set under a threshold is set under every lower one. -/
theorem pixelBit_anti {m : AvgMode} {t1 t2 : Byte} (ht : t2.toNat ≤ t1.toNat) {c : Byte × Byte × Byte}
    (h : pixelBit m t1 c = true) : pixelBit m t2 c = true :=
  (pixelBit_iff m t2 c).2 (ht.trans_lt ((pixelBit_iff m t1 c).1 h))

/-! ### From the bits to the bytes of the result (R127) -/

/-- Equal destination bits make equal bytes. -/
theorem convertByte_congr_bits {p p' : Params} {img img' : Image} {w w' h h' : Nat} {t t' : Byte}
    (hbit : ∀ x y, destBit p img w h t x y = destBit p' img' w' h' t' x y) (k : Nat) :
    convertByte p img w h t k = convertByte p' img' w' h' t' k := by
  simp only [convertByte, hbit]

/-- Destination bits that are all 0 make zero bytes. -/
theorem convertByte_eq_zero {p : Params} {img : Image} {w h : Nat} {t : Byte}
    (hbit : ∀ x y, destBit p img w h t x y = false) (k : Nat) : convertByte p img w h t k = 0 := by
  simp [convertByte, hbit]

/-- The bits of a byte of the result, at any index: the destination bits in its low eight places and 0 above. -/
theorem convertByte_testBit_iff (p : Params) (img : Image) (w h : Nat) (t : Byte) (k j : Nat) :
    (convertByte p img w h t k).testBit j = true ↔
      j < 8 ∧ destBit p img w h t (8 * (k % 16) + (7 - j)) (k / 16) = true := by
  by_cases hj : j < 8
  · have hbit := convertByte_testBit p img w h t k (j := 7 - j) (by omega)
    rw [Nat.sub_sub_self (Nat.le_of_lt_succ hj)] at hbit
    rw [hbit, and_iff_right hj]
  · have hlt : convertByte p img w h t k < 2 ^ j :=
      (convertByte_lt p img w h t k).trans_le (Nat.pow_le_pow_right (n := 2) (by decide) (Nat.le_of_not_lt hj))
    simp [Nat.testBit_lt_two_pow hlt, hj]

/-! ### The obligations -/

/-- Settles O31: the averages are the lemmas above, and the bytes follow because each destination bit is a threshold of
an average. -/
theorem averageRanges : Obligations.AverageRanges := by
  refine ⟨fun r g b => ⟨avg_wrap8_le r g b, avg_le .wide r g b⟩, fun v hv => ⟨_, _, _, avg_wrap8_grey hv⟩,
    fun v hv => ⟨_, _, _, avg_wide_grey hv⟩, avg_wrap8_eq_wide_iff, avg_wrap8_of_carry,
    fun m r g b r' g' b' => ⟨avg_congr_sum m, avg_congr_sum m (by omega), avg_congr_sum m (by omega)⟩,
    fun p img img' w h t k hsum => convertByte_congr_bits (fun x y => ?_) k⟩
  rw [destBit, destBit, pixelBit, pixelBit, avg_congr_sum _ (hsum _ _)]

/-- Settles O32: every destination bit is the bit of some pixel, and `pixelBit_dead` says it is 0. -/
theorem deadThresholds : Obligations.DeadThresholds := fun _ _ _ _ _ ht =>
  ⟨pixelBit_dead ht, convertByte_eq_zero fun _ _ => pixelBit_dead ht _⟩

/-- Settles O33: `pixelBit_anti` at each destination bit, and each bit of a byte that can be 1 is a destination bit. -/
theorem higherThresholdGivesFewerBits : Obligations.HigherThresholdGivesFewerBits := by
  intro p img w h t1 t2 ht
  have hbit : ∀ x y, destBit p img w h t1 x y = true → destBit p img w h t2 x y = true := fun _ _ =>
    pixelBit_anti ht.le
  refine ⟨hbit, fun k j _ h1 => ?_⟩
  obtain ⟨hj, h1⟩ := (convertByte_testBit_iff p img w h t1 k j).1 h1
  exact (convertByte_testBit_iff p img w h t2 k j).2 ⟨hj, hbit _ _ h1⟩

end Sys2Proof.Machine

/-! PROOFS. The stuck engine (R45, R139): which step makes it stuck, what of its conversion every step but reset leaves
in place, and that a planned reset frees it. -/

namespace Sys2Proof.Machine

/-! ### What holds a conversion in place -/

/-- `t` holds the conversion of `s` where it was: only WIGN (R27) and the bits of the accumulator, drawn again for
changed source bytes (R59), may differ. -/
structure State.HeldAt (s t : State) : Prop where
  stuck  : t.stuck = s.stuck
  status : t.status = { s.status with wign := t.status.wign }
  eng    : t.eng = { s.eng with acc := t.eng.acc }
  regs   : t.regs = s.regs

/-- The platform's turn leaves a conversion where it was. -/
theorem heldAt_setSource (s : State) (m : Memory) (a : Nat) : s.HeldAt (s.dropTurn.setSource m a) := by
  obtain ⟨o, x, ch, h⟩ := setSource_frame s.dropTurn m a
  rw [h]
  exact ⟨rfl, rfl, rfl, rfl⟩

/-! ### Getting stuck -/

/-- CONVERT never makes an engine stuck (R81). -/
theorem convertEffect_stuck {s : State} (hk : s.stuck = false) : (convertEffect s).stuck = false := by
  rcases convertEffect_cases s with ⟨-, h⟩ | ⟨-, h⟩
  · rw [h]
  · rw [h]; exact hk

/-- R139: of all agents' steps, only the engine's on a fetch without an answer makes the engine stuck. -/
theorem step_gets_stuck {s t : State} (h : step s = .next t) (hs : s.stuck = false) (ht : t.stuck = true) :
    s.nextTurn = .engine ∧ s.status.busy = true ∧ fetchResized s s.eng.pix = none := by
  have hne : t.stuck ≠ false := by simp [ht]
  rcases step_cases h with
    ⟨k, -, h', o, r, n, rfl⟩ | ⟨k, x, d, i, -, -, -, u, h', o, n, rfl, hu⟩ | ⟨-, -, rfl⟩ | ⟨hn, hb, -, hc, rfl⟩ |
    ⟨-, -, -, o, e, st, rfl, -⟩ | ⟨a, b, -, rfl⟩ | ⟨a, -, rfl⟩ | ⟨-, rfl⟩
  · exact absurd hs hne
  · rcases hu with ⟨-, -, rfl⟩ | ⟨-, r, rfl⟩ | ⟨-, -, rfl⟩ | ⟨-, -, rfl⟩
    · exact absurd hs hne
    · exact absurd hs hne
    · exact absurd (convertEffect_stuck hs) hne
    · exact absurd hs hne
  · exact absurd hs hne
  · exact ⟨hn, hb, hc⟩
  · exact absurd hs hne
  · exact absurd ((heldAt_setSource s _ _).stuck.trans hs) hne
  · exact absurd ((heldAt_setSource s _ _).stuck.trans hs) hne
  · exact absurd rfl hne

/-! ### Staying stuck -/

/-- R139: with BUSY = 1 the hosts and the platform cannot move a stuck engine's conversion, and its own turn passes. -/
theorem heldAt_step_of_stuck {s t : State} (h : step s = .next t) (hb : s.status.busy = true) (hk : s.stuck = true)
    (hn : s.nextTurn ≠ .reset) : s.HeldAt t := by
  have notIdle : s.status.busy ≠ false := by simp [hb]
  have notFree : s.stuck ≠ false := by simp [hk]
  rcases step_cases h with
    ⟨k, -, h', o, r, n, rfl⟩ | ⟨k, x, d, i, -, -, -, u, h', o, n, rfl, hu⟩ | ⟨-, -, rfl⟩ | ⟨-, -, hf, -⟩ |
    ⟨-, -, hf, -⟩ | ⟨a, b, -, rfl⟩ | ⟨a, -, rfl⟩ | ⟨hr, -⟩
  · exact ⟨rfl, rfl, rfl, rfl⟩
  · rcases hu with ⟨-, -, rfl⟩ | ⟨hi, -⟩ | ⟨hi, -⟩ | ⟨hi, -⟩
    · exact ⟨rfl, rfl, rfl, rfl⟩
    all_goals exact absurd hi notIdle
  · exact ⟨rfl, rfl, rfl, rfl⟩
  · exact absurd hf notFree
  · exact absurd hf notFree
  · exact heldAt_setSource s _ _
  · exact heldAt_setSource s _ _
  · exact absurd hr hn

/-! ### Planned turns -/

/-- A step with a turn planned is that turn, taken off the plan (R56). -/
theorem step_planned (s : State) (x : Turn) (rest : List Turn) :
    step { s with turns := x :: rest } = takeTurn { s with turns := rest } x := rfl

/-- R139: with BUSY = 1 and a byte of the pixel not backed, the engine is stuck after its turn, as it was before the
turn or not. -/
theorem engineTurn_unbacked {s : State} (hb : s.status.busy = true) (hc : fetchResized s s.eng.pix = none) :
    engineTurn s = .next s.getStuck := by
  cases hk : s.stuck
  · exact engineTurn_getStuck hb hk hc
  · have same : s.getStuck = s := by rw [State.getStuck, ← hk]
    rw [same]
    exact engineTurn_pass (.inr hk)

/-! ### The obligation -/

/-- Settles O39: `step_gets_stuck` for how the engine gets stuck, `heldAt_step_of_stuck` with the invariant's STATUS for
how it stays so, and reset's turn, planned after the engine's or not, for how it is freed. -/
theorem stuckEngineWaitsForReset : Obligations.StuckEngineWaitsForReset := by
  refine ⟨fun s t h hs ht => ?gets, fun s t hI hk h hn => ?stays, fun s hn => ⟨_, step_reset hn, rfl, rfl⟩,
    fun s c rest hb hc hu => ?freed⟩
  case gets =>
    obtain ⟨hn, hb, hf⟩ := step_gets_stuck h hs ht
    exact ⟨hn, hb, fetchResized_none.1 hf⟩
  case stays =>
    have hb := hI.stuck hk
    obtain ⟨hbusy, -, hcode⟩ := hI.status
    obtain ⟨-, herr⟩ := hbusy hb
    obtain ⟨hstuck, hst, heng, hregs⟩ := heldAt_step_of_stuck h hb hk hn
    refine ⟨hstuck.trans hk, hst, ?_, ?_, ?_, heng, hregs⟩ <;> rw [hst]
    exacts [hb, herr, hcode herr]
  case freed =>
    have hengine := engineTurn_unbacked (s := { s with turns := .reset :: rest }) hb (fetchResized_none.2 ⟨c, hc, hu⟩)
    exact ⟨_, _, (step_planned s .engine _).trans hengine, rfl, rfl, step_planned { s with stuck := true } .reset rest,
      rfl, rfl, rfl⟩

end Sys2Proof.Machine

/-! PROOFS. The two round trips of the encoding (R63 to R69), which rows take which offsets, and the forms of the rows
with sizes that the access rule (R49) refuses. -/

namespace Sys2Proof

/-! ### Decoding what was encoded -/

/-- A reserved access, as R49 and R68 say it. -/
theorem reservedAccess_iff {off : BitVec 12} {n : Size} :
    reservedAccess off n = true ↔
      (0x01C ≤ off.toNat ∧ off.toNat ≤ 0x3FF ∧ n = .b4 ∧ off.toNat % 4 = 0) ∨
      (0x800 ≤ off.toNat ∧ off.toNat % n.bytes = 0) := by
  simp only [reservedAccess, Bool.or_eq_true, Bool.and_eq_true, decide_eq_true_eq, beq_iff_eq, and_assoc,
    Nat.lt_succ_iff]

theorem outAccess_iff {k : BitVec 10} {n : Size} : outAccess k n = true ↔ k.toNat % n.bytes = 0 := beq_iff_eq

/-- The rows of R68 and R69 one by one: a register's row has a fixed descriptor, the other rows take their offset and
size from the transaction. -/
theorem decode_encode {i : Instr} (h : i.wellFormed = true) : decode (encode i) = .ok i := by
  cases i with
  | wrCmd d => exact decodeBus_register 0x1000 .wrCmd d rfl rfl
  | rdCmd => exact decodeBus_register 0x0000 .rdCmd 0 rfl rfl
  | rdStatus => exact decodeBus_register 0x0004 .rdStatus 0 rfl rfl
  | wrStatus d => exact decodeBus_register 0x1004 .wrStatus d rfl rfl
  | rdSrcBase => exact decodeBus_register 0x0008 .rdSrcBase 0 rfl rfl
  | wrSrcBase d => exact decodeBus_register 0x1008 .wrSrcBase d rfl rfl
  | rdSrcLen => exact decodeBus_register 0x000C .rdSrcLen 0 rfl rfl
  | wrSrcLen d => exact decodeBus_register 0x100C .wrSrcLen d rfl rfl
  | rdSrcWidth => exact decodeBus_register 0x0010 .rdSrcWidth 0 rfl rfl
  | wrSrcWidth d => exact decodeBus_register 0x1010 .wrSrcWidth d rfl rfl
  | rdSrcHeight => exact decodeBus_register 0x0014 .rdSrcHeight 0 rfl rfl
  | wrSrcHeight d => exact decodeBus_register 0x1014 .wrSrcHeight d rfl rfl
  | rdThreshold => exact decodeBus_register 0x0018 .rdThreshold 0 rfl rfl
  | wrThreshold d => exact decodeBus_register 0x1018 .wrThreshold d rfl rfl
  | rdOut k n => exact decodeBus_out (outAccess_iff.1 h) false 0b001 rfl 0
  | wrOut k n d => exact decodeBus_out (outAccess_iff.1 h) true 0b101 rfl d
  | rdReserved off n => exact decodeBus_reserved (reservedAccess_iff.1 h) false 0b0 rfl 0
  | wrReserved off n d => exact decodeBus_reserved (reservedAccess_iff.1 h) true 0b1 rfl d
  | nop => rfl
  | convert => rfl
  | cmdReserved w =>
    have hw : w ≠ 0 ∧ w ≠ 1 := by simpa [Instr.wellFormed] using h
    exact congrArg Except.ok (decodeCmd_reserved hw.1 hw.2)

/-! ### Encoding what was decoded -/

/-- The instruction a row gives a transaction is well-formed and is encoded as that transaction, less the data word of
a read (R64, R71). -/
def BusOp.Recovers (op : BusOp) (t : Txn) : Prop :=
  (op.instr t).wellFormed = true ∧ encode (op.instr t) = .bus { t with data := if t.isWrite then t.data else 0 }

/-- A descriptor is its direction and its offset. -/
theorem Txn.desc_toNat (t : Txn) : t.desc.toNat = (if t.isWrite then 4096 else 0) + t.off.toNat := by
  have := t.desc.isLt
  rw [Txn.isWrite_eq, Txn.off_toNat]
  split_ifs with h <;> simp only [decide_eq_true_eq] at h <;> omega

/-- Each of the seven registers of R68, in both directions. -/
theorem recovers_register {t : Txn} (hn : t.size = 4)
    (ho : t.off.toNat = 0x000 ∨ t.off.toNat = 0x004 ∨ t.off.toNat = 0x008 ∨ t.off.toNat = 0x00C ∨
      t.off.toNat = 0x010 ∨ t.off.toNat = 0x014 ∨ t.off.toNat = 0x018) :
    (rowOf t.isWrite t.off.toNat).Recovers t := by
  have hd : t.desc = BitVec.ofNat 13 ((if t.isWrite then 4096 else 0) + t.off.toNat) := by
    rw [← t.desc_toNat, BitVec.ofNat_toNat, BitVec.setWidth_eq]
  have hrow : ((rowOf t.isWrite t.off.toNat).instr t).wellFormed = true ∧
      encode ((rowOf t.isWrite t.off.toNat).instr t) =
        .bus ⟨BitVec.ofNat 13 ((if t.isWrite then 4096 else 0) + t.off.toNat), 4, if t.isWrite then t.data else 0⟩ := by
    rcases ho with h | h | h | h | h | h | h <;> rw [h] <;> cases t.isWrite <;> exact ⟨rfl, rfl⟩
  rwa [← hd, ← hn] at hrow

/-- The rows of the OUT window: the index is the descriptor's low ten bits. -/
theorem recovers_out {t : Txn} (hn : t.size = 1 ∨ t.size = 2 ∨ t.size = 4) (ha : t.off.toNat % t.size = 0)
    (hlo : 0x400 ≤ t.off.toNat) (hhi : t.off.toNat < 0x800) : (rowOf t.isWrite t.off.toNat).Recovers t := by
  have hdesc := t.desc_toNat
  have hk : (t.desc.setWidth 10).toNat = t.desc.toNat % 1024 := BitVec.toNat_setWidth ..
  have hwf : outAccess (t.desc.setWidth 10) (Size.ofBytes t.size) = true := by
    rw [outAccess_iff, Size.bytes_ofBytes hn, hk]
    split_ifs at hdesc <;> rcases hn with h | h | h <;> rw [h] at ha ⊢ <;> omega
  have hd (hi : BitVec 3) (hw : hi.toNat = if t.isWrite then 5 else 1) : hi ++ t.desc.setWidth 10 = t.desc := by
    apply BitVec.eq_of_toNat_eq
    rw [toNat_desc_append, hk, hw]
    split_ifs at hdesc ⊢ <;> omega
  rw [rowOf_out _ hlo hhi]
  cases hw : t.isWrite
  · refine ⟨hwf, ?_⟩
    simpa [BusOp.instr, encode, Size.bytes_ofBytes hn, hw] using hd 0b001 (by rw [hw]; rfl)
  · refine ⟨hwf, ?_⟩
    simpa [BusOp.instr, encode, Size.bytes_ofBytes hn, hw] using hd 0b101 (by rw [hw]; rfl)

/-- The reserved rows: the offset is the descriptor's low twelve bits. -/
theorem recovers_reserved {t : Txn} (hn : t.size = 1 ∨ t.size = 2 ∨ t.size = 4)
    (hacc : reservedAccess t.off (Size.ofBytes t.size) = true) (hlo : 0x01C ≤ t.off.toNat)
    (hhi : t.off.toNat < 0x400 ∨ 0x800 ≤ t.off.toNat) : (rowOf t.isWrite t.off.toNat).Recovers t := by
  have hd (hi : BitVec 1) (hw : hi.toNat = t.isWrite.toNat) : hi ++ t.off = t.desc := by
    apply BitVec.eq_of_toNat_eq
    rw [toNat_desc_append, hw, t.desc_toNat]
    cases t.isWrite <;> rfl
  rw [rowOf_reserved _ hlo hhi]
  cases hw : t.isWrite
  · refine ⟨hacc, ?_⟩
    simpa [BusOp.instr, encode, Size.bytes_ofBytes hn, hw] using hd 0b0 (by rw [hw]; rfl)
  · refine ⟨hacc, ?_⟩
    simpa [BusOp.instr, encode, Size.bytes_ofBytes hn, hw] using hd 0b1 (by rw [hw]; rfl)

/-- Every legal transaction is recovered from its row's instruction. -/
theorem recovers_of_legal {t : Txn} (h : accessProblem t.off t.size = none) :
    (rowOf t.isWrite t.off.toNat).Recovers t := by
  have hlegal := accessProblem_eq_none.1 h
  have hn : t.size = 1 ∨ t.size = 2 ∨ t.size = 4 := by omega
  rcases legal_offset_cases hlegal with ho | ⟨hlo, hhi⟩ | ⟨hlo, hhi⟩
  · exact recovers_register (by omega) ho
  · rcases hlegal with ⟨hlt, -⟩ | ⟨-, -, ha⟩
    · omega
    · exact recovers_out hn ha hlo hhi
  · refine recovers_reserved hn (reservedAccess_iff.2 ?_) hlo hhi
    rw [Size.bytes_ofBytes hn]
    rcases hlegal with ⟨hlt, h4, ha⟩ | ⟨hge, -, ha⟩
    · exact .inl ⟨hlo, by omega, by rw [h4]; rfl, ha⟩
    · exact .inr ⟨by omega, ha⟩

end Sys2Proof

namespace Sys2Proof.Machine

/-! ### The forms that break R49 -/

/-- R49: an access with a problem is refused. -/
theorem ifLegal_refused {off : BitVec 12} {n : Size} {e : TxnError} (h : accessProblem off n.bytes = some e)
    (s : State) : ifLegal off n s = .refused (.badTransaction e) := by
  unfold ifLegal; rw [h]

/-! ### The obligations -/

/-- Settles O1: the encodings of R68 and R69, row by row. -/
theorem decodeEncodeRoundTrip : Obligations.DecodeEncodeRoundTrip := fun _ => decode_encode

/-- Settles O2: a legal transaction lies in one of three regions, and in each its row's operands are all of it. -/
theorem encodeDecodeRoundTrip : Obligations.EncodeDecodeRoundTrip := by
  intro t i hd
  obtain ⟨hlegal, rfl⟩ := decodeBus_eq_ok.1 hd
  exact recovers_of_legal hlegal

/-- Settles O4: the rows by direction and offset, in each of the three regions of a legal transaction. -/
theorem rowsTakeTheirOffsets : Obligations.RowsTakeTheirOffsets := by
  intro t hlegal
  rw [Txn.decodeRow_eq]
  rcases legal_offset_cases (accessProblem_eq_none.1 hlegal) with ho | ⟨hlo, hhi⟩ | ⟨hlo, hhi⟩
  · rcases ho with h | h | h | h | h | h | h <;> rw [h] <;> cases t.isWrite <;> decide
  · rw [rowOf_out _ hlo hhi]
    cases t.isWrite <;> simp <;> omega
  · rw [rowOf_reserved _ hlo hhi]
    cases t.isWrite <;> simp <;> omega

/-- Settles O5: the samples are evaluated. -/
theorem sampleWordsDecode : Obligations.SampleWordsDecode := ⟨rfl, rfl, rfl, rfl, rfl, rfl, rfl, rfl, rfl, rfl⟩

/-- Settles O16: each broken form has an access problem, and the access check comes first (R77). -/
theorem misalignedFormsRefused : Obligations.MisalignedFormsRefused := by
  refine fun s n d => ⟨fun k hk => ?out, fun off hoff => ?reserved⟩
  case out =>
    have hp : accessProblem (outOffset k) n.bytes = some .misaligned := by rw [accessProblem_out, if_neg hk]
    exact ⟨ifLegal_refused hp _, ifLegal_refused hp s⟩
  case reserved =>
    have hp : accessProblem off n.bytes ≠ none := by
      rw [accessProblem_reserved]
      split_ifs with h1 h2
      · simp
      · exact absurd h2 (hoff.resolve_left h1)
      · simp
    obtain ⟨e, he⟩ := Option.ne_none_iff_exists'.1 hp
    exact ⟨⟨e, ifLegal_refused he _⟩, e, ifLegal_refused he s⟩

end Sys2Proof.Machine

/-! PROOFS. A step and a host's turn (R18, R56, R75, R77): which turn a step is, what a host's turn adds around its
instruction, its branches, and what reads and gated writes leave. -/

namespace Sys2Proof.Machine

/-! ### Which turn a step is -/

/-- With no turn planned, a step is the unplanned turn (R56, R160). -/
theorem step_unplanned {s : State} (h : s.turns = []) : step s = takeTurn s (unplannedTurn s) := by
  rw [step, dropTurn_nil h, State.nextTurn, h]
  rfl

theorem unplannedTurn_of_enabled {s : State} (h : s.engineEnabled = true) : unplannedTurn s = .engine := if_pos h

theorem unplannedTurn_of_not_enabled {s : State} (h : s.engineEnabled = false) : unplannedTurn s = .host 0 :=
  if_neg (by simp [h])

/-! ### A host's next statement -/

/-- A host that has a statement is there. -/
theorem host_of_fetch {s : State} {k : Nat} {op : HostOp} (h : s.fetch k = some op) :
    ∃ a, s.hosts[k]? = some a := by
  unfold State.fetch at h
  split at h
  · cases h
  · exact ⟨_, ‹_›⟩

/-- A host that has finished, or is not there, has no statement. -/
theorem fetch_eq_none_of_finished {s : State} (h : s.hosts.all HostAgent.finished = true) (k : Nat) :
    s.fetch k = none := by
  unfold State.fetch
  split
  · rfl
  · next a ha =>
    have hfin : a.finished = true := List.all_eq_true.1 h a (List.mem_of_getElem? ha)
    exact List.getElem?_eq_none (of_decide_eq_true hfin)

/-- A host's turn without a statement passes (assumption 17). -/
theorem hostTurn_pass {s : State} {k : Nat} (h : s.fetch k = none) : hostTurn s k = .next s := by
  unfold hostTurn; rw [h]

/-! ### What a host's turn adds around its instruction -/

/-- A host after a read's data word went to the statement's variable, if it names one (R75). -/
def HostAgent.receive (h : HostAgent) (dst : Option Nat) (w : Word) : HostAgent :=
  match dst with
  | none => h
  | some r => h.setVar r w

/-- A host after its turn with instruction `i`, which left the data word `w`. -/
def HostAgent.retired (h : HostAgent) (i : Instr) (dst : Option Nat) (w : Word) : HostAgent :=
  if i.isRead then (h.receive dst w).advance else h.advance

theorem HostAgent.receive_prog (h : HostAgent) (dst : Option Nat) (w : Word) : (h.receive dst w).prog = h.prog := by
  cases dst <;> rfl

theorem HostAgent.receive_pc (h : HostAgent) (dst : Option Nat) (w : Word) : (h.receive dst w).pc = h.pc := by
  cases dst <;> rfl

theorem HostAgent.var_receive {h : HostAgent} (hw : h.varsWf) (dst : Option Nat) (w : Word) (r : Nat) :
    (h.receive dst w).var r = if dst = some r then w else h.var r := by
  cases dst with
  | none => rfl
  | some q => simp only [HostAgent.receive, var_setVar h q r w hw, Option.some.injEq, eq_comm]

theorem HostAgent.retired_prog (h : HostAgent) (i : Instr) (dst : Option Nat) (w : Word) :
    (h.retired i dst w).prog = h.prog := by
  unfold HostAgent.retired
  split_ifs
  · exact h.receive_prog dst w
  · rfl

theorem HostAgent.retired_pc (h : HostAgent) (i : Instr) (dst : Option Nat) (w : Word) :
    (h.retired i dst w).pc = h.pc + 1 := by
  unfold HostAgent.retired
  split_ifs
  · exact congrArg (· + 1) (h.receive_pc dst w)
  · rfl

theorem HostAgent.var_retired {h : HostAgent} (hw : h.varsWf) (i : Instr) (dst : Option Nat) (w : Word) (r : Nat) :
    (h.retired i dst w).var r = if i.isRead = true ∧ dst = some r then w else h.var r := by
  unfold HostAgent.retired
  cases i.isRead
  · rfl
  · have hvar : (h.receive dst w).advance.var r = if dst = some r then w else h.var r :=
      HostAgent.var_receive hw dst w r
    simpa using hvar

/-- The whole effect of `retire`. -/
theorem retire_eq {u : State} {k : Nat} {h : HostAgent} (hk : u.hosts[k]? = some h) (i : Instr) (dst : Option Nat) :
    u.retire k i dst =
      { u with
        hosts := u.hosts.set k (h.retired i dst u.readData)
        observed := if i.isRead then u.observed ++ [u.readData] else u.observed
        tick := if i.isRead then u.tick else u.tick + 1 } := by
  cases hr : i.isRead
  · simp only [State.retire, HostAgent.retired, hr, Bool.false_eq_true, if_false, ← modify_of_getElem? hk]
    rfl
  · simp only [State.retire, HostAgent.retired, hr, if_true]
    have hhosts : (u.hosts.modify k fun a => a.receive dst u.readData).modify k HostAgent.advance =
        u.hosts.set k (h.receive dst u.readData).advance := by
      rw [List.modify_modify_eq, modify_of_getElem? hk]
      rfl
    rw [← hhosts]
    rfl

/-- Only whether the instruction reads counts for `retire`. -/
theorem retire_congr {i j : Instr} (h : i.isRead = j.isRead) (s : State) (k : Nat) (dst : Option Nat) :
    s.retire k i dst = s.retire k j dst := by
  unfold State.retire; rw [h]

/-! ### Branches -/

/-- R75: a branch changes where its host's program goes on. -/
theorem branch_eq (s : State) (k : Nat) (taken : Bool) (target : Nat) :
    s.branch k taken target =
      { s with hosts := s.hosts.modify k fun a => { a with pc := if taken = true then target else a.pc + 1 } } := by
  have hsame : ∀ a : HostAgent, (if taken = true then { a with pc := target } else a.advance) =
      { a with pc := if taken = true then target else a.pc + 1 } := fun a => by cases taken <;> rfl
  simp only [State.branch, State.onHost, hsame]

/-- R75: the test of a branch of a host that is there. -/
theorem maskedZero_eq {s : State} {k : Nat} {h : HostAgent} (hk : s.hosts[k]? = some h) (r : Nat) (mask : Word) :
    s.maskedZero k r mask = decide (h.var r &&& mask = 0) := by
  unfold State.maskedZero
  rw [hk]
  rfl

/-! ### The fetched word -/

theorem fetch_withFetchWord (s : State) (nbits w : Nat) :
    (s.withFetchWord nbits w).fetch 0 = some (.bus (txnOfTableWord nbits w) none) := by
  unfold State.fetch State.withFetchWord
  cases s.hosts <;> rfl

/-- The step of a state with a row's bits placed, where they decode as a transaction. -/
theorem step_withFetchWord {s : State} {nbits w : Nat} {i : Instr}
    (hd : decodeBus (txnOfTableWord nbits w) = .ok i) :
    step (s.withFetchWord nbits w) =
      andThen (exec i { s with hosts := loadOne s.hosts (txnOfTableWord nbits w) }) (·.retire 0 i none) :=
  step_bus (s := s.withFetchWord nbits w) rfl (fetch_withFetchWord s nbits w) hd

/-- R63: a row's bits are a command word, which the write to CMD carries (R67), or a transaction. -/
theorem decodeTableWord_cases {nbits w : Nat} {i : Instr} (h : decodeTableWord nbits w = some i) :
    (∃ c : Word, i = decodeCmd c ∧ txnOfTableWord nbits w = ⟨0x1000, 4, c⟩) ∨
    decodeBus (txnOfTableWord nbits w) = .ok i := by
  unfold decodeTableWord at h
  unfold txnOfTableWord
  split_ifs at h with hn hw
  · exact .inl ⟨_, (Option.some.inj h).symm, if_pos hn⟩
  · rw [if_neg hn]
    split at h
    · cases h
    · next t ht =>
      rw [ht]
      split at h
      · next j hj => exact .inr (hj.trans (congrArg _ (Option.some.inj h)))
      · cases h

/-- A command word returns no data. -/
theorem decodeCmd_isRead (c : Word) : (decodeCmd c).isRead = false := by
  unfold decodeCmd
  cases decodeCmdRow c <;> rfl

/-! ### Reads -/

/-- No read is gated (R77). -/
theorem Instr.isRead_eq_false_of_isGated {i : Instr} (h : i.isGated = true) : i.isRead = false := by
  revert h
  cases i <;> simp [Instr.isGated, Instr.isRead]

/-- R52: the next state of a read. -/
theorem exec_read {i : Instr} {s t : State} (hr : i.isRead = true) (h : exec i s = .next t) :
    t = s.returnData t.readData := by
  have notGated : i.isGated ≠ true := fun hg => by simp [Instr.isRead_eq_false_of_isGated hg] at hr
  rcases exec_cases h with ⟨-, ht⟩ | ⟨hr', -⟩ | ⟨hg, -⟩ | ⟨hg, -⟩ | ⟨hg, -⟩ | ⟨hg, -⟩
  · exact ht
  · exact absurd (hr.symm.trans hr') (by decide)
  all_goals exact absurd hg notGated

/-- The step in which a host reads: the data word of the read, and nothing of the engine. -/
theorem step_read {s u : State} {k : Nat} {x : Txn} {d : Option Nat} {i : Instr} (hd : decodeBus x = .ok i)
    (hr : i.isRead = true) (hn : s.nextTurn = .host k) (hf : s.fetch k = some (.bus x d)) (h : step s = .next u) :
    ∃ t, exec i s.dropTurn = .next t ∧ u.readData = t.readData ∧ u.status = s.status ∧ u.regs = s.regs ∧
      u.out = s.out ∧ u.tick = s.tick := by
  rw [step_bus hn hf hd] at h
  obtain ⟨t, ht, rfl⟩ := andThen_next h
  refine ⟨t, ht, ?_⟩
  rw [exec_read hr ht, State.retire, if_pos hr]
  exact ⟨rfl, rfl, rfl, rfl, rfl⟩

/-- R33, R94: THRESHOLD reads back the low 8 bits of what was written. -/
theorem thresholdWord_thresholdOperand (d : Word) : thresholdWord (thresholdOperand d) = d &&& 0x000000FF := by
  apply BitVec.eq_of_toNat_eq
  rw [thresholdWord, thresholdOperand, BitVec.toNat_setWidth, BitVec.toNat_setWidth, BitVec.toNat_and]
  have hmask : d.toNat &&& (0x000000FF : Word).toNat = d.toNat % 2 ^ 8 := Nat.and_two_pow_sub_one_eq_mod d.toNat 8
  rw [hmask]
  omega

/-! ### The obligations -/

/-- Settles O7: the host's turn decodes, performs and retires its transaction. -/
theorem stepRunsTheDecodedInstruction : Obligations.StepRunsTheDecodedInstruction := by
  intro s k t dst i hn hf hd
  rw [step_bus hn hf hd]
  rfl

/-- Settles O8: `retire_eq` with the host after its turn. -/
theorem hostTurnHandsOverReadData : Obligations.HostTurnHandsOverReadData := fun u _ i dst h hk =>
  ⟨h.retired i dst u.readData, retire_eq hk i dst, h.retired_prog i dst _, h.retired_pc i dst _,
    fun r hw => HostAgent.var_retired hw i dst _ r⟩

/-- Settles O9: the two branches take the test of the mask as it is and negated. -/
theorem branchesFollowTheMask : Obligations.BranchesFollowTheMask := by
  intro s k r target mask hn
  refine ⟨fun hf => ?_, fun hf => ?_⟩
  all_goals
    obtain ⟨h, hk⟩ := host_of_fetch hf
    rw [step_host s k hn, hostTurn, fetch_dropTurn, hf]
    simp only [branch_eq, maskedZero_eq (s := s.dropTurn) hk, State.dropTurn_hosts, modify_of_getElem? hk,
      decide_eq_true_eq, Bool.not_eq_true', decide_eq_false_iff_not]
    rfl

/-- Settles O10: a row's bits are a transaction, or a command word in a write to CMD, which does what the command
does. -/
theorem fetchWordRunsTheRow : Obligations.FetchWordRunsTheRow := by
  intro s nbits w i h
  rcases decodeTableWord_cases h with ⟨c, rfl, hx⟩ | hd
  · have hd : decodeBus (txnOfTableWord nbits w) = .ok (.wrCmd c) := by
      rw [hx]; exact decodeBus_register 0x1000 .wrCmd c rfl rfl
    have hsame : (Instr.wrCmd c).isRead = (decodeCmd c).isRead := (decodeCmd_isRead c).symm
    simp only [step_withFetchWord hd, exec_decodeCmd, retire_congr hsame]
  · exact step_withFetchWord hd

/-- Settles O11: the plan's first turn, and without one the turn that `engineEnabled` chooses. -/
theorem stepIsOneTurn : Obligations.StepIsOneTurn := by
  refine fun s => ⟨fun t rest h => ?planned, fun h hb hk => ?engine, fun h hp => ?host⟩
  case planned => rw [step, State.nextTurn, State.dropTurn, h]; rfl
  case engine => rw [step_unplanned h, unplannedTurn_of_enabled (engineEnabled_iff.2 ⟨hb, hk⟩)]; rfl
  case host => rw [step_unplanned h, unplannedTurn_of_not_enabled (engineEnabled_eq_false.2 hp)]; rfl

/-- Settles O12: the turn is the first host's, which has no statement. -/
theorem endedRunStays : Obligations.EndedRunStays := by
  intro s he ht
  obtain ⟨hfin, hidle⟩ : s.hosts.all HostAgent.finished = true ∧ s.status.busy = false := by
    simpa [State.ended] using he
  rw [step_unplanned ht, unplannedTurn_of_not_enabled (engineEnabled_eq_false.2 (.inl hidle))]
  exact hostTurn_pass (fetch_eq_none_of_finished hfin 0)

/-- Settles O17: `exec_read`, field by field. -/
theorem hostReadsHaveNoSideEffect : Obligations.HostReadsHaveNoSideEffect := fun _ _ _ hr h => exec_read hr h

/-- Settles O18: the first read's step leaves all that the second read's data word depends on. -/
theorem repeatedReadsAgree : Obligations.RepeatedReadsAgree := by
  intro s u v j k x d e i hd hr hns hfs hs hnu hfu hu
  obtain ⟨t, ht, htd, hst, hregs, hout, htick⟩ := step_read hd hr hns hfs hs
  obtain ⟨t', ht', htd', -⟩ := step_read hd hr hnu hfu hu
  rw [htd, htd']
  exact read_congr (s := u.dropTurn) (u := s.dropTurn) hr hst hregs hout htick ht' ht

/-- Settles O20: these instructions are the gated ones. -/
theorem writesWhileBusyIgnored : Obligations.WritesWhileBusyIgnored := by
  intro s i hb hi
  have hg : i.isGated = true := by
    rcases hi with ⟨d, rfl | rfl | rfl | rfl | rfl | rfl | rfl⟩ | rfl | rfl <;> rfl
  exact exec_gated_busy hb hg

/-- Settles O22: with BUSY = 0 the write stores its operand, and the read returns the register. -/
theorem configReadsBackWhatWasWritten : Obligations.ConfigReadsBackWhatWasWritten := fun _ d hb =>
  ⟨⟨_, _, next_gatedWrite_idle hb (·.setSrcBase d), rfl, rfl⟩,
    ⟨_, _, next_gatedWrite_idle hb (·.setSrcLen d), rfl, rfl⟩,
    ⟨_, _, next_gatedWrite_idle hb (·.setSrcWidth d), rfl, rfl⟩,
    ⟨_, _, next_gatedWrite_idle hb (·.setSrcHeight d), rfl, rfl⟩,
    ⟨_, _, next_gatedWrite_idle hb (·.setThreshold (thresholdOperand d)), rfl, thresholdWord_thresholdOperand d⟩⟩

/-- Settles O27: STATUS after an accepted CONVERT has no field of the one before but BUSY, which was 0. -/
theorem noStaleCompletion : Obligations.NoStaleCompletion := by
  intro s hb
  refine ⟨_, _, exec_convert_idle hb, rfl, ?_⟩
  rw [State.returnData_readData]
  cases hv : validShape s.regs
  · exact .inr ⟨rfl, by rw [convertEffect_status_invalid hv, hb]; decide⟩
  · exact .inl ⟨rfl, by rw [convertEffect_status_valid hv]; decide⟩

end Sys2Proof.Machine

/-! PROOFS. The result as bytes (R127 to R130) and the engine's turn (R99): one pixel's whole effect, where the engine
gets stuck (R45, R139), and the emits (R126). -/

namespace Sys2Proof.Machine

/-! ### The result -/

/-- R127: eight equal bits make 0xFF or 0x00. -/
theorem convertByte_uniform {p : Params} {img : Image} {w h : Nat} {t : Byte} {k : Nat} {b : Bool}
    (hb : ∀ j, j < 8 → destBit p img w h t (8 * (k % 16) + j) (k / 16) = b) :
    convertByte p img w h t k = if b = true then 0xFF else 0x00 := by
  have h0 := hb 0 (by decide)
  rw [Nat.add_zero] at h0
  rw [convertByte_eq, h0, hb 1 (by decide), hb 2 (by decide), hb 3 (by decide), hb 4 (by decide), hb 5 (by decide),
    hb 6 (by decide), hb 7 (by decide)]
  cases b <;> rfl

/-- R106, R130: the maps stay in the image, so a uniform image has uniform destination bits. -/
theorem destBit_uniform {p : Params} {img : Image} {w h : Nat} {t : Byte} {c : Byte × Byte × Byte} (hw : 1 ≤ w)
    (hh : 1 ≤ h) (huni : ∀ x y, x < w → y < h → img x y = c) {x y : Nat} (hx : x < 128) (hy : y < 64) :
    destBit p img w h t x y = pixelBit p.avgMode t c := by
  rw [destBit, huni _ _ (mapX_lt p.nnMap hw (Nat.le_of_lt_succ hx)) (mapY_lt p.nnMap hh (Nat.le_of_lt_succ hy))]

/-! ### One pixel -/

/-- With BUSY = 1 and the invariant, the hidden state fits a conversion. -/
theorem engine_wf_of_busy {s : State} (hI : s.Inv) (hb : s.status.busy = true) : s.eng.wf true := hb ▸ hI.engine

theorem pixelDone_stuck (s : State) (c : Byte × Byte × Byte) : (s.pixelDone c).stuck = s.stuck := by
  obtain ⟨o, e, st, h, -⟩ := pixelDone_frame s c
  rw [h]

@[simp] theorem outByte_nextDraw (s : State) (k : Nat) : outByte s.nextDraw k = outByte s k := rfl

/-- R124, R126: OUT after one pixel: an eighth pixel's byte is the accumulator with its bit. -/
theorem outByte_pixelDone {s : State} (he : s.eng.wf true) (c : Byte × Byte × Byte) {k : Nat} (hk : k < 1024) :
    outByte (s.pixelDone c) k =
      if s.eng.pix % 8 = 7 ∧ k = s.eng.pix / 8 then
        s.eng.acc ||| placeBit (pixelBit s.params.avgMode s.regs.threshold c) 7
      else outByte s k := by
  obtain ⟨hpix, -, -⟩ := he.1 rfl
  simp only [nPix] at hpix
  rw [pixelDone_eq he, outByte]
  by_cases h7 : s.eng.pix % 8 = 7
  · simp only [h7, if_true, true_and]
    exact outByte_set (by omega) hk
  · simp only [h7, if_false, false_and]
    rfl

/-- R126: OIDX after one pixel. -/
theorem oidx_pixelDone {s : State} (he : s.eng.wf true) (c : Byte × Byte × Byte) :
    (s.pixelDone c).eng.oidx = if s.eng.pix % 8 = 7 then s.eng.pix / 8 + 1 else s.eng.pix / 8 := by
  rw [pixelDone_eq he]

/-! ### Getting stuck -/

/-- A stuck state is the state with its mark. -/
theorem getStuck_of_stuck {s : State} (h : s.stuck = true) : s = s.getStuck := by
  rw [State.getStuck, ← h]

/-- R45, R139: the engine's turn answers a next state, and how the mark of a stuck engine comes about. -/
theorem engineTurn_stuck (s : State) : ∃ t, engineTurn s = .next t ∧
    (s.stuck = false → (t.stuck = true ↔ s.status.busy = true ∧ fetchResized s s.eng.pix = none)) ∧
    (t.stuck = true → t = s.getStuck) := by
  rcases engineTurn_cases s with ⟨hp, ht⟩ | ⟨hb, -, hc, ht⟩ | ⟨-, hk, c, hc, ht⟩
  · refine ⟨s, ht, fun hk => ?_, getStuck_of_stuck⟩
    have hidle : s.status.busy = false := hp.resolve_right (by simp [hk])
    simp [hk, hidle]
  · exact ⟨_, ht, fun _ => iff_of_true rfl ⟨hb, hc⟩, fun _ => rfl⟩
  · have hstuck : (s.pixelDone c).nextDraw.stuck = false := (pixelDone_stuck s c).trans hk
    exact ⟨_, ht, fun _ => iff_of_false (by rw [hstuck]; decide) (by simp [hc]),
      fun h => absurd (hstuck.symm.trans h) (by decide)⟩

/-! ### The obligations -/

/-- Settles O35: bit 7 - (x mod 8) of byte 16y + (x div 8) is that of column 8 (x div 8) + (x mod 8) and row y. -/
theorem resultLayout : Obligations.ResultLayout := by
  intro p img w h t
  refine ⟨convertByte_lt p img w h t, fun x y hx hy => ⟨?_, by omega⟩⟩
  have hcol : (16 * y + x / 8) % 16 = x / 8 := by omega
  have hrow : (16 * y + x / 8) / 16 = y := by omega
  rw [convertByte_testBit p img w h t _ (Nat.mod_lt x (by decide)), hcol, hrow, Nat.div_add_mod]

/-- Settles O36: every destination bit is the one of the common pixel. -/
theorem uniformImage : Obligations.UniformImage := by
  intro p img w h t c hw hh huni
  refine ⟨fun x y hx hy => destBit_uniform hw hh huni hx hy, fun k hk => ?_⟩
  rw [convertByte_uniform fun j hj => destBit_uniform hw hh huni (by omega) (by omega)]
  simp only [pixelBit_iff]

/-- Settles O37: the engine's turn passes, gets stuck on its fetch, or is `pixelDone_eq` with the channels fetched. -/
theorem engineStepProcessesOnePixel : Obligations.EngineStepProcessesOnePixel := by
  refine fun s => ⟨engineTurn_pass, fun hb hk hc => engineTurn_getStuck hb hk (fetchResized_none.2 hc), ?_⟩
  intro r g b hI hb hk hr hg hbl
  obtain ⟨r', g', b', hc, hr', hg', hb'⟩ := fetchResized_backed (s := s) (i := s.eng.pix) hr hg hbl
  refine ⟨r', g', b', hr', hg', hb', ?_⟩
  rw [engineTurn_step hb hk hc, pixelDone_eq (engine_wf_of_busy hI hb)]
  rfl

/-- Settles O38: `engineTurn_stuck`, and a backed buffer answers every fetch (R106). -/
theorem engineStuckExactlyOnUnbackedBytes : Obligations.EngineStuckExactlyOnUnbackedBytes := by
  intro s
  obtain ⟨t, ht, hiff, hmark⟩ := engineTurn_stuck s
  refine ⟨t, ht, fun hk => (hiff hk).trans (and_congr_right fun _ => fetchResized_none), hmark, fun hI hB hk => ?_⟩
  refine Bool.eq_false_iff.2 fun h => ?_
  obtain ⟨hb, hnone⟩ := (hiff hk).1 h
  obtain ⟨c, hc⟩ := fetchResized_of_backed (engine_wf_of_busy hI hb) (hI.shape hb) hB
  exact absurd (hnone.symm.trans hc) (by simp)

/-- Settles O40: a pixel changes OUT, the hidden state, the tick and, the last one, BUSY and DONE. -/
theorem engineTurnFrame : Obligations.EngineTurnFrame := by
  intro s t h
  refine ⟨fun hidle => ?idle, ?frame⟩
  case idle => exact Host.Outcome.next.inj (h.symm.trans (engineTurn_pass (.inl hidle)))
  case frame =>
    rcases engineTurn_next h with ⟨-, rfl⟩ | ⟨-, -, -, rfl⟩ | ⟨-, -, c, -, rfl⟩
    · exact ⟨rfl, rfl, rfl, rfl, rfl, rfl, rfl, rfl, rfl, rfl, rfl⟩
    · exact ⟨rfl, rfl, rfl, rfl, rfl, rfl, rfl, rfl, rfl, rfl, rfl⟩
    · obtain ⟨o, e, st, hframe, hst⟩ := pixelDone_frame s c
      rw [hframe]
      rcases hst with rfl | ⟨-, rfl⟩ <;> exact ⟨rfl, rfl, rfl, rfl, rfl, rfl, rfl, rfl, rfl, rfl, rfl⟩

/-- Settles O34: the emit condition of a conversion (R126), and OUT and OIDX after one pixel. -/
theorem emitsEveryEighthPixel : Obligations.EmitsEveryEighthPixel := by
  intro s t hI hb h ht
  obtain ⟨c, -, rfl⟩ := engineTurn_pixel h hb ht
  have he := engine_wf_of_busy hI hb
  have hpix : s.eng.pix < 8192 := (he.1 rfl).1
  refine ⟨?emits, fun h7 => ⟨pixelBit s.params.avgMode s.regs.threshold c, ?byte⟩, oidx_pixelDone he c,
    fun k hk hne => ?others⟩
  case emits => exact (Bool.eq_iff_iff.1 (emitNow_wf he)).trans decide_eq_true_iff
  case byte =>
    rw [outByte_nextDraw, outByte_pixelDone he c (by omega), if_pos ⟨h7, rfl⟩]
    rfl
  case others => rw [outByte_nextDraw, outByte_pixelDone he c hk, if_neg (by omega)]

/-- Settles O41: the step for pixel 8191 is an eighth pixel's and the last. -/
theorem lastEngineStepCompletes : Obligations.LastEngineStepCompletes := by
  intro s t hI hb hlast h ht
  obtain ⟨c, -, rfl⟩ := engineTurn_pixel h hb ht
  have he := engine_wf_of_busy hI hb
  obtain ⟨hbusy, -, -⟩ := hI.status
  obtain ⟨-, herr⟩ := hbusy hb
  have hst : (s.pixelDone c).nextDraw.status = s.status.finished := (pixelDone_status s c).trans (if_pos hlast)
  refine ⟨hst, by rw [hst]; exact herr, ?eng, ⟨pixelBit s.params.avgMode s.regs.threshold c, ?byte⟩,
    fun k hk => ?others⟩
  case eng =>
    rw [State.nextDraw_eng, pixelDone_eq he]
    simp [hlast]
  case byte =>
    rw [outByte_nextDraw, outByte_pixelDone he c (by decide), hlast, if_pos (by decide)]
    rfl
  case others => rw [outByte_nextDraw, outByte_pixelDone he c (by omega), hlast, if_neg (by omega)]

end Sys2Proof.Machine

/-! PROOFS. The invariant and what is packed right, over every step (R24 to R28, R35, R59, R126); the result that a
completed conversion leaves (R127, R131), the conversion left alone (R100) and its determinism (R40). -/

namespace Sys2Proof.Machine

/-! ### Every agent's turn keeps the invariant -/

theorem Inv_platformWrite {s : State} (hI : s.Inv) (a : BitVec 32) (b : Byte) : (platformWrite a b s).Inv :=
  Inv_setSource hI (Memory.wf_write hI.memory a b)

theorem Inv_platformUnback {s : State} (hI : s.Inv) (a : BitVec 32) : (platformUnback a s).Inv :=
  Inv_setSource hI (Memory.wf_unback hI.memory a)

/-- The invariant, turn by turn. -/
theorem Inv_takeTurn {s t : State} (hI : s.Inv) (x : Turn) (h : takeTurn s x = .next t) : t.Inv := by
  cases x with
  | host k => exact Inv_hostTurn h hI
  | engine => exact Inv_engineTurn h hI
  | platformWrite a b => injection h with h; exact h ▸ Inv_platformWrite hI a b
  | platformUnback a => injection h with h; exact h ▸ Inv_platformUnback hI a
  | reset => injection h with h; exact h ▸ Inv_reset_like hI.memory hI.hosts

/-! ### Every agent's turn keeps what is packed right -/

/-- With BUSY = 0 no pixel is being packed. -/
theorem packedRight_idle {s : State} (hb : s.status.busy = false) : s.packedRight :=
  fun h => absurd (hb.symm.trans h) (by decide)

theorem packedRight_dropTurn {s : State} (hI : s.Inv) (hp : s.packedRight) : s.dropTurn.packedRight :=
  packedRight_congr hp hI rfl rfl rfl rfl rfl rfl fun _ _ _ => rfl

theorem packedRight_platformWrite {s : State} (hI : s.Inv) (hp : s.packedRight) (a : BitVec 32) (b : Byte) :
    (platformWrite a b s).packedRight :=
  packedRight_setSource hI hp fun x hx => by rw [Memory.read_write, if_neg hx]

theorem packedRight_platformUnback {s : State} (hI : s.Inv) (hp : s.packedRight) (a : BitVec 32) :
    (platformUnback a s).packedRight :=
  packedRight_setSource hI hp fun x hx => by rw [Memory.read_unback hI.memory, if_neg hx]

/-- What is packed, turn by turn. -/
theorem packedRight_takeTurn {s t : State} (hI : s.Inv) (hp : s.packedRight) (x : Turn)
    (h : takeTurn s x = .next t) : t.packedRight := by
  cases x with
  | host k => exact packedRight_hostTurn h hI hp
  | engine => exact packedRight_engineTurn h hI hp
  | platformWrite a b => injection h with h; exact h ▸ packedRight_platformWrite hI hp a b
  | platformUnback a => injection h with h; exact h ▸ packedRight_platformUnback hI hp a
  | reset => injection h with h; exact h ▸ packedRight_idle rfl

/-! ### Completion -/

/-- R24: an engine's turn that ends BUSY has processed the last pixel. -/
theorem engineTurn_completes {s t : State} (h : engineTurn s = .next t) (hb : s.status.busy = true)
    (ht : t.status.busy = false) :
    s.eng.pix = 8191 ∧ ∃ c, fetchResized s s.eng.pix = some c ∧ t = (s.pixelDone c).nextDraw := by
  rcases engineTurn_next h with ⟨-, rfl⟩ | ⟨-, -, -, rfl⟩ | ⟨-, -, c, hc, rfl⟩
  · exact absurd (hb.symm.trans ht) (by decide)
  · exact absurd (hb.symm.trans ht) (by decide)
  · refine ⟨by_contra fun hp => ?_, c, hc, rfl⟩
    rw [State.nextDraw_status, pixelDone_status, if_neg hp] at ht
    exact absurd (hb.symm.trans ht) (by decide)

/-- R57, R99, R127: the last engine step of a conversion that is packed right. -/
theorem engineTurn_leaves_result {s t : State} (hI : s.Inv) (hp : s.packedRight) (hch : s.changed = [])
    (hb : s.status.busy = true) (h : engineTurn s = .next t) (ht : t.status.busy = false) :
    t.status = s.status.finished ∧ ∀ k, k < 1024 → (outByte t k).toNat = s.convert k := by
  obtain ⟨hlast, c, hc, rfl⟩ := engineTurn_completes h hb ht
  exact ⟨(pixelDone_status s c).trans (if_pos hlast),
    fun k hk => out_of_last (engine_wf_of_busy hI hb) hp hb hch hc hlast hk⟩

/-- OUT is its 1024 bytes. -/
theorem out_ext {s t : State} (h : ∀ k, k < 1024 → (outByte s k).toNat = (outByte t k).toNat) : s.out = t.out := by
  apply Vector.ext
  intro k hk
  have hbyte := BitVec.eq_of_toNat_eq (h k hk)
  simpa [outByte, hk] using hbyte

/-- R40: two states whose OUT is the result of equal inputs have the same OUT. -/
theorem out_eq_of_equal_inputs {s u t v : State} (hv : validShape s.regs = true) (hp : s.params = u.params)
    (hr : s.regs = u.regs) (hsrc : ∀ a, inBuffer s.regs a = true → s.source.read a = u.source.read a)
    (ht : ∀ k, k < 1024 → (outByte t k).toNat = s.convert k)
    (hv' : ∀ k, k < 1024 → (outByte v k).toNat = u.convert k) : t.out = v.out :=
  out_ext fun k hk => by
    rw [ht k hk, hv' k hk, convert_congr hp.symm hr.symm hv (fun a ha => (hsrc a ha).symm) hk]

/-! ### A conversion left alone -/

/-- R100: the 8192nd step of a conversion left alone. -/
theorem run_complete {s s1 : State} (hv : validShape s.regs = true) (hB : s.backed) (h1 : Running s 0 s1) :
    ∃ t, Sys2Proof.core.run 8192 s1 = .next t ∧
      t.status = { busy := false, done := true, err := false, wign := false, errCode := 0 } ∧
      (∀ k, k < 1024 → (outByte t k).toNat = s.convert k) ∧
      t.eng = { pix := 0, acc := 0, nb := 0, oidx := 1024 } ∧
      t.params = s.params ∧ t.regs = s.regs ∧ t.source = s.source ∧ t.hosts = s.hosts ∧ t.observed = s.observed := by
  obtain ⟨u, hu, hR⟩ := run_running hv hB h1 8191 (by decide)
  obtain ⟨c, hc, hstep⟩ := fetch_running hv hB hR
  have hb : u.status.busy = true := by rw [hR.status]
  have hout : ∀ k, k < 1024 → (outByte (u.pixelDone c) k).toNat = s.convert k := fun k hk => by
    rw [out_of_last hR.eng hR.packed hb hR.changed hc hR.pix hk,
      convert_congr hR.params hR.regs hv (fun a _ => by rw [hR.source]) hk]
  have hstatus : (u.pixelDone c).status = u.status.finished := (pixelDone_status u c).trans (if_pos hR.pix)
  have heng : (u.pixelDone c).eng = { pix := 0, acc := 0, nb := 0, oidx := 1024 } := by
    rw [pixelDone_eq hR.eng]; simp [hR.pix]
  obtain ⟨o, e, st, hframe, -⟩ := pixelDone_frame u c
  refine ⟨_, (core_run_succ hu).trans hstep, ?_, hout, heng, ?_⟩
  · rw [State.nextDraw_status, hstatus, hR.status]; rfl
  · rw [hframe]
    exact ⟨hR.params, hR.regs, hR.source, hR.hosts, hR.observed⟩

/-- R81, R131: so its OUT is the result. -/
theorem out_of_run {s s1 t : State} (hb : s.status.busy = false) (hturns : s.turns = [])
    (hv : validShape s.regs = true) (hB : s.backed) (h1 : exec .convert s = .next s1)
    (ht : Sys2Proof.core.run 8192 s1 = .next t) : ∀ k, k < 1024 → (outByte t k).toNat = s.convert k := by
  obtain ⟨s1', h1', hR⟩ := running_zero hb hturns hv
  obtain rfl : s1' = s1 := by injection h1'.symm.trans h1
  obtain ⟨t', ht', -, hout, -⟩ := run_complete hv hB hR
  obtain rfl : t' = t := by injection ht'.symm.trans ht
  exact hout

/-! ### The obligations -/

/-- Settles O43: a step is one agent's turn, and `Inv_takeTurn` goes through the agents. -/
theorem everyStepKeepsTheInvariant : Obligations.EveryStepKeepsTheInvariant := fun _ _ hI h =>
  Inv_takeTurn (Inv_dropTurn hI) _ h

/-- Settles O44: a step is one agent's turn, and `packedRight_takeTurn` goes through the agents. -/
theorem everyStepKeepsThePackedPixelsRight : Obligations.EveryStepKeepsThePackedPixelsRight := fun _ _ hI hp h =>
  packedRight_takeTurn (Inv_dropTurn hI) (packedRight_dropTurn hI hp) _ h

/-- Settles O42: reset brings the invariant about, and leaves BUSY = 0. -/
theorem resetHasTheInvariant : Obligations.ResetHasTheInvariant :=
  ⟨Inv_congr (Inv_reset_like (s := State.reset) State.reset_source_wf (fun _ h => nomatch h)) rfl rfl rfl rfl rfl
    (fun _ h => nomatch h) rfl, packedRight_idle rfl⟩

/-- Settles O45: the completing turn is the step for the last pixel, after which every bit is right. -/
theorem completionLeavesTheResult : Obligations.CompletionLeavesTheResult := by
  intro s t hI hp hch hb h hn ht
  rw [step_engine s hn] at h
  obtain ⟨hst, hout⟩ := engineTurn_leaves_result (Inv_dropTurn hI) (packedRight_dropTurn hI hp) hch hb h ht
  obtain ⟨hbusy, -, -⟩ := hI.status
  obtain ⟨-, herr⟩ := hbusy hb
  exact ⟨by rw [hst]; rfl, by rw [hst]; exact herr, hout⟩

/-- Settles O48: both OUT are results, and equal inputs have equal results. -/
theorem completionsWithEqualInputsLeaveEqualOut : Obligations.CompletionsWithEqualInputsLeaveEqualOut := by
  intro s u t v hIs hIu hps hpu hchs hchu hbs hbu hns hnu hs hu ht hv hparams hregs hsrc
  obtain ⟨-, -, hout⟩ := completionLeavesTheResult s t hIs hps hchs hbs hs hns ht
  obtain ⟨-, -, hout'⟩ := completionLeavesTheResult u v hIu hpu hchu hbu hu hnu hv
  exact out_eq_of_equal_inputs (hIs.shape hbs) hparams hregs hsrc hout hout'

/-- Settles O46: `run_running` is every point of the conversion, `run_complete` its end. -/
theorem conversionTakes8192Steps : Obligations.ConversionTakes8192Steps := by
  intro s hb hturns hv hB
  obtain ⟨s1, h1, hR⟩ := running_zero hb hturns hv
  refine ⟨s1, h1, fun n hn => ?_, run_complete hv hB hR⟩
  obtain ⟨u, hu, hRu⟩ := run_running hv hB hR n hn
  exact ⟨u, hu, by rw [hRu.status], hRu.pix⟩

/-- Settles O47: the second machine's buffer is backed too, so both OUT are results. -/
theorem equalInputsGiveEqualOutputs : Obligations.EqualInputsGiveEqualOutputs := by
  intro s u s1 u1 s2 u2 hbs hbu hts htu hv hB hparams hregs hsrc hs1 hu1 hs2 hu2
  have hBu : u.backed := fun a ha => by
    rw [← hregs] at ha
    rw [← hsrc a ha]
    exact hB a ha
  exact out_eq_of_equal_inputs hv hparams hregs hsrc (out_of_run hbs hts hv hB hs1 hs2)
    (out_of_run hbu htu (hregs ▸ hv) hBu hu1 hu2)

end Sys2Proof.Machine

/-! PROOFS. What belongs to whom: the configuration while BUSY = 1 (R61), OUT (R34), source memory (R44) and its changes
during a conversion (R59), reset (R151), and a write that meets the last engine step (R141). -/

namespace Sys2Proof.Machine

/-! ### What an instruction and a step leave -/

/-- R16, R34, R44: no instruction touches the parameters, OUT or source memory. -/
theorem exec_frame {i : Instr} {s t : State} (h : exec i s = .next t) :
    t.params = s.params ∧ t.out = s.out ∧ t.source = s.source := by
  rcases exec_cases h with ⟨-, h⟩ | ⟨-, rfl⟩ | ⟨-, -, rfl⟩ | ⟨-, -, r, rfl⟩ | ⟨-, -, -, rfl⟩ | ⟨-, -, -, rfl⟩
  · rw [h]; exact ⟨rfl, rfl, rfl⟩
  · exact ⟨rfl, rfl, rfl⟩
  · exact ⟨rfl, rfl, rfl⟩
  · exact ⟨rfl, rfl, rfl⟩
  · rcases convertEffect_cases s with ⟨-, hc⟩ | ⟨-, hc⟩ <;> rw [hc] <;> exact ⟨rfl, rfl, rfl⟩
  · exact ⟨rfl, rfl, rfl⟩

/-- R61: with BUSY = 1 no instruction touches the configuration: a write to it is ignored (R77). -/
theorem exec_regs_busy {i : Instr} {s t : State} (hb : s.status.busy = true) (h : exec i s = .next t) :
    t.regs = s.regs := by
  have notIdle : s.status.busy ≠ false := by simp [hb]
  rcases exec_cases h with ⟨-, h⟩ | ⟨-, rfl⟩ | ⟨-, -, rfl⟩ | ⟨-, hi, -⟩ | ⟨-, hi, -⟩ | ⟨-, hi, -⟩
  · rw [h]; rfl
  · rfl
  · rfl
  all_goals exact absurd hi notIdle

/-- What a turn of any agent leaves, by what it belongs to. -/
structure TurnFrame (s : State) (x : Turn) (t : State) : Prop where
  params : t.params = s.params
  regs   : s.status.busy = true → x ≠ .reset → t.regs = s.regs
  out    : s.status.busy = false → x ≠ .reset → t.out = s.out
  source : t.source ≠ s.source → (∃ a b, x = .platformWrite a b) ∨ ∃ a, x = .platformUnback a

/-- A host changes none of it but the configuration with BUSY = 0. -/
theorem turnFrame_hostTurn {s t : State} {k : Nat} (h : hostTurn s k = .next t) : TurnFrame s (.host k) t := by
  rcases hostTurn_cases h with ⟨-, rfl⟩ | ⟨b, l, rfl⟩ | ⟨x, d, i, u, -, -, hu, rfl⟩
  · exact ⟨rfl, fun _ _ => rfl, fun _ _ => rfl, absurd rfl⟩
  · exact ⟨rfl, fun _ _ => rfl, fun _ _ => rfl, absurd rfl⟩
  · obtain ⟨hparams, hout, hsource⟩ := exec_frame hu
    obtain ⟨o, hh, n, hr⟩ := retire_frame u k i d
    rw [hr]
    exact ⟨hparams, fun hb _ => exec_regs_busy (t := u) hb hu, fun _ _ => hout, absurd hsource⟩

/-- The engine changes OUT with BUSY = 1. -/
theorem turnFrame_engineTurn {s t : State} (h : engineTurn s = .next t) : TurnFrame s .engine t := by
  obtain ⟨hidle, hparams, hregs, hsource, -⟩ := engineTurnFrame s t h
  exact ⟨hparams, fun _ _ => hregs, fun hb _ => by rw [hidle hb], absurd hsource⟩

/-- The platform changes source memory, and OUT with BUSY = 1. -/
theorem turnFrame_setSource (s : State) (m : Memory) (a : Nat) {x : Turn}
    (hx : (∃ a b, x = .platformWrite a b) ∨ ∃ a, x = .platformUnback a) : TurnFrame s x (s.setSource m a) := by
  obtain ⟨o, y, ch, h⟩ := setSource_frame s m a
  refine ⟨by rw [h], fun _ _ => by rw [h], fun hb _ => ?_, fun _ => hx⟩
  rw [setSource_idle (.inl hb)]

/-- Every agent's turn. -/
theorem turnFrame_takeTurn {s t : State} (x : Turn) (h : takeTurn s x = .next t) : TurnFrame s x t := by
  cases x with
  | host k => exact turnFrame_hostTurn h
  | engine => exact turnFrame_engineTurn h
  | platformWrite a b => injection h with h; exact h ▸ turnFrame_setSource s _ _ (.inl ⟨a, b, rfl⟩)
  | platformUnback a => injection h with h; exact h ▸ turnFrame_setSource s _ _ (.inr ⟨a, rfl⟩)
  | reset =>
    injection h with h
    exact h ▸ ⟨rfl, fun _ hn => absurd rfl hn, fun _ hn => absurd rfl hn, absurd rfl⟩

/-- A step is a turn, and dropping it off the plan touches nothing else. -/
theorem step_frame {s t : State} (h : step s = .next t) : TurnFrame s s.nextTurn t :=
  have f := turnFrame_takeTurn s.nextTurn h
  ⟨f.params, f.regs, f.out, f.source⟩

/-! ### Changes of source memory -/

theorem step_platformWrite {s : State} {a : BitVec 32} {b : Byte} (h : s.nextTurn = .platformWrite a b) :
    step s = .next (platformWrite a b s.dropTurn) := by
  unfold step; rw [h]; rfl

theorem step_platformUnback {s : State} {a : BitVec 32} (h : s.nextTurn = .platformUnback a) :
    step s = .next (platformUnback a s.dropTurn) := by
  unfold step; rw [h]; rfl

/-- R59: what a change of the byte at `a` to `v` touches, in a conversion and outside one. -/
theorem setSource_touches {s : State} (hI : s.Inv) {m : Memory} {a : Nat} {v : Option Byte} (hm : m.read a = v) :
    (s.status.busy = true → inBuffer s.regs a = true → s.source.read a ≠ v →
      (∀ i, i < s.eng.pix → a ≠ s.pixelAddr i → a ≠ s.pixelAddr i + 1 → a ≠ s.pixelAddr i + 2 →
        (s.setSource m a).packedBit i = s.packedBit i) ∧
      (∀ x, x ∈ (s.setSource m a).changed ↔ x = a ∨ x ∈ s.changed) ∧
      (∀ k, k < 1024 → s.eng.oidx ≤ k → outByte (s.setSource m a) k = outByte s k) ∧
      s.setSource m a = { s with
        source := m, out := (s.setSource m a).out, eng := { s.eng with acc := (s.setSource m a).eng.acc },
        changed := (s.setSource m a).changed }) ∧
    (s.status.busy = false ∨ inBuffer s.regs a = false ∨ s.source.read a = v →
      s.setSource m a = { s with source := m }) := by
  constructor
  · intro hb hin hne
    have hset : s.setSource m a =
        State.redraw { s with source := m, changed := noteChanged s.changed a } a := by
      rw [State.setSource, if_neg (by rw [hm]; exact Ne.symm hne), if_pos (by rw [hb, hin]; rfl)]
      rfl
    have he := engine_wf_of_busy hI hb
    rw [hset]
    refine ⟨fun i hi h0 h1 h2 => ?_, fun x => mem_noteChanged s.changed a x, fun k hk hle => ?_, rfl⟩
    · have notUsed : s.pixelUses i a ≠ true := by simp [State.pixelUses, h0, h1, h2]
      exact (packedBit_redraw (s := { s with source := m, changed := noteChanged s.changed a }) he a hi).trans
        (if_neg notUsed)
    · rw [outByte_redraw _ a hk]
      exact if_neg (Nat.not_lt.2 hle)
  · rintro (hb | hout | heq)
    · exact setSource_idle (.inl hb)
    · exact setSource_idle (.inr hout)
    · exact if_pos (hm.trans heq.symm)

/-! ### Reset -/

/-- R152: a byte of OUT after a reset is a free value. -/
theorem outByte_resetEngine (s : State) {k : Nat} (hk : k < 1024) :
    outByte s.resetEngine k = Config.outAtReset s.tick k := by
  simp [outByte, outAfterReset, hk]

/-! ### A write that meets the last engine step -/

/-- A run of two steps. -/
theorem run_two {s u : State} {o : Host.Outcome State Fault Refusal} (h1 : step s = .next u) (h2 : step u = o) :
    Sys2Proof.core.run 2 s = o :=
  (core_run_succ ((core_run_succ (n := 0) rfl).trans h1)).trans h2

/-- R77: a gated instruction completes in every state. -/
theorem exec_gated_completes {i : Instr} (hg : i.isGated = true) (s : State) : ∃ v, exec i s = .next v := by
  cases i <;> simp only [Instr.isGated, Bool.false_eq_true] at hg
  all_goals exact ⟨_, rfl⟩

/-- R99, R141: the last engine step of a conversion with a backed buffer, planned next. -/
theorem step_last_planned {s : State} (rest : List Turn) (he : s.eng.wf true) (hv : validShape s.regs = true)
    (hB : s.backed) (hb : s.status.busy = true) (hk : s.stuck = false) (hlast : s.eng.pix = 8191) :
    ∃ u, step { s with turns := .engine :: rest } = .next u ∧ u.status = s.status.finished ∧ u.regs = s.regs ∧
      u.turns = rest ∧ u.hosts = s.hosts := by
  obtain ⟨o, e, h⟩ := engineTurn_last (s := { s with turns := rest }) he hb hk hv hB hlast
  exact ⟨_, (step_planned s .engine rest).trans h, rfl, rfl, rfl, rfl⟩

/-- R77: a gated write with BUSY = 1, planned next: beside WIGN it changes what a host's turn adds. -/
theorem step_ignored_planned {s : State} {k : Nat} {x : Txn} {dst : Option Nat} {i : Instr} (rest : List Turn)
    (hb : s.status.busy = true) (hf : s.fetch k = some (.bus x dst)) (hd : decodeBus x = .ok i)
    (hg : i.isGated = true) :
    ∃ o hh n, step { s with turns := .host k :: rest } =
      .next { s.ignoreWrite with observed := o, hosts := hh, tick := n, turns := rest } := by
  obtain ⟨o, hh, n, hr⟩ := retire_frame { s.ignoreWrite with turns := rest } k i dst
  refine ⟨o, hh, n, ?_⟩
  have hexec : exec i { s with turns := rest } = .next { s.ignoreWrite with turns := rest } :=
    exec_gated_busy (s := { s with turns := rest }) hb hg
  rw [step_bus (s := { s with turns := .host k :: rest }) rfl hf hd]
  exact (congrArg (andThen · _) hexec).trans (congrArg _ hr)

/-- R77: with BUSY = 0 a transaction but a write to CMD leaves STATUS. -/
theorem status_of_not_wrCmd {x : Txn} {i : Instr} {u v : State} (hd : decodeBus x = .ok i)
    (hb : u.status.busy = false) (hne : ∀ d, i ≠ .wrCmd d) (h : exec i u = .next v) : v.status = u.status := by
  rcases exec_bus_cases hd h with h | ⟨-, hb', -⟩ | ⟨-, r, rfl⟩ | ⟨-, hi, -⟩ | ⟨-, ⟨w, -, hi⟩, -⟩
  · rw [h]; rfl
  · exact absurd (hb.symm.trans hb') (by decide)
  · rfl
  · exact absurd hi (hne 1)
  · exact absurd hi (hne w)

/-- R86 to R94: with BUSY = 0 a write to a configuration register stores its operand. -/
theorem regs_of_configWrite {i : Instr} {u v : State} (hb : u.status.busy = false) (h : exec i u = .next v) (d : Word) :
    (i = .wrSrcBase d → v.regs = { u.regs with srcBase := d }) ∧
    (i = .wrSrcLen d → v.regs = { u.regs with srcLen := d }) ∧
    (i = .wrSrcWidth d → v.regs = { u.regs with srcWidth := d }) ∧
    (i = .wrSrcHeight d → v.regs = { u.regs with srcHeight := d }) ∧
    (i = .wrThreshold d → v.regs = { u.regs with threshold := d.setWidth 8 }) := by
  have hv (f : State → State) (he : exec i u = .next (gatedWrite u f)) : v = f u :=
    Host.Outcome.next.inj (h.symm.trans (he.trans (next_gatedWrite_idle hb f)))
  refine ⟨?_, ?_, ?_, ?_, ?_⟩ <;> rintro rfl
  · rw [hv (·.setSrcBase d) rfl]; rfl
  · rw [hv (·.setSrcLen d) rfl]; rfl
  · rw [hv (·.setSrcWidth d) rfl]; rfl
  · rw [hv (·.setSrcHeight d) rfl]; rfl
  · rw [hv (·.setThreshold (thresholdOperand d)) rfl]; rfl

/-! ### The obligations -/

/-- Settles O52: the parameters and the configuration of `step_frame`. -/
theorem configurationFixedWhileBusy : Obligations.ConfigurationFixedWhileBusy := fun _ _ h =>
  ⟨(step_frame h).params, (step_frame h).regs⟩

/-- Settles O53: `exec_frame` for the instructions, OUT of `step_frame` for the steps. -/
theorem outBelongsToTheEngine : Obligations.OutBelongsToTheEngine := by
  refine ⟨fun i s t h => ?_, fun s t h => (step_frame h).out⟩
  obtain ⟨-, hout, hsource⟩ := exec_frame h
  exact ⟨hout, hsource⟩

/-- Settles O54: source memory of `step_frame`, and the reads after the platform's two operations. -/
theorem sourceMemoryIsThePlatforms : Obligations.SourceMemoryIsThePlatforms := by
  refine ⟨fun s t h => (step_frame h).source, fun s a b x hwf => ⟨fun hn => ?write, fun hn => ?unback⟩⟩
  case write =>
    refine ⟨_, step_platformWrite hn, ?_⟩
    rw [platformWrite, setSource_source, State.dropTurn_source, Memory.read_write]
  case unback =>
    refine ⟨_, step_platformUnback hn, ?_⟩
    rw [platformUnback, setSource_source, State.dropTurn_source, Memory.read_unback hwf]

/-- Settles O55: the platform's two turns are `setSource`, with the byte and without one at the address. -/
theorem sourceChangeTouchesOnlyItsOwnBits : Obligations.SourceChangeTouchesOnlyItsOwnBits := by
  intro s a v hI
  cases v with
  | some b => exact setSource_touches hI (by rw [Memory.read_write, if_pos rfl])
  | none => exact setSource_touches hI (by rw [Memory.read_unback hI.memory, if_pos rfl])

/-- Settles O57: the planned turn is `resetEngine`, after which BUSY = 0. -/
theorem resetAbortsAndClears : Obligations.ResetAbortsAndClears := fun s rest =>
  ⟨_, step_planned s .reset rest, rfl, rfl, rfl, rfl, rfl, fun _ hk => outByte_resetEngine _ hk,
    engineTurn_pass (.inl rfl), rfl, rfl, rfl, rfl, rfl, rfl⟩

/-- Settles O58: in both orders the engine's turn is the last step of the conversion; the write meets BUSY = 1 before it
and BUSY = 0 after it. -/
theorem writeRacingTheLastStep : Obligations.WriteRacingTheLastStep := by
  intro s k x dst i rest hI hB hb hk hlast hf hd hg
  have he := engine_wf_of_busy hI hb
  have hshape := hI.shape hb
  refine ⟨?writeFirst, ?stepFirst⟩
  case writeFirst =>
    obtain ⟨o, hh, n, hwrite⟩ := step_ignored_planned (.engine :: rest) hb hf hd hg
    obtain ⟨t, hlastStep, hst, hregs, -⟩ :=
      step_last_planned (s := { s.ignoreWrite with observed := o, hosts := hh, tick := n }) rest he hshape hB hb hk
        hlast
    exact ⟨t, run_two hwrite hlastStep, hst, hregs⟩
  case stepFirst =>
    obtain ⟨u, hlastStep, hst, hregs, hturns, hhosts⟩ := step_last_planned (.host k :: rest) he hshape hB hb hk hlast
    have hidle : u.status.busy = false := by rw [hst]; rfl
    have hdrop : u.dropTurn = { u with turns := rest } := by rw [State.dropTurn, hturns]; rfl
    have hn : u.nextTurn = .host k := by rw [State.nextTurn, hturns]; rfl
    have hfu : u.fetch k = some (.bus x dst) := by rw [State.fetch, hhosts]; exact hf
    obtain ⟨v, hv⟩ := exec_gated_completes hg { u with turns := rest }
    have hwrite : step u = .next (v.retire k i dst) := by rw [step_bus hn hfu hd, hdrop, hv]; rfl
    refine ⟨u, v, hlastStep, hst, hregs, hv, run_two hlastStep hwrite,
      fun hne => status_of_not_wrCmd (u := { u with turns := rest }) hd hidle hne hv, ?_⟩
    rw [← hregs]
    exact regs_of_configWrite (u := { u with turns := rest }) hidle hv

end Sys2Proof.Machine
